-- ==== Sys2Proof/Word.lean ====
section
/-! DEFINITION. The two value types of the machine (00_scope.md R5, R7): bytes and 16-bit words, both unsigned bit
patterns. Byte order and every helper over these types stand in Sys2Proof/Decode.lean. -/

namespace Sys2Proof

/-- `u8`: an opcode byte, a register operand byte, a byte of a Memory Block (R5, R7). -/
abbrev Byte := BitVec 8

/-- `u16`: a register cell, a literal, a main-memory address (R5, R7). -/
abbrev Word := BitVec 16

end Sys2Proof
end

