-- ==== Sys2Proof/Syntax.lean ====
section
/-! DEFINITION. The instruction set as syntax: the ten registers (10_state.md R12), the six opcodes and operand kinds
(30_encoding.md R51, R53), and one constructor of `Instr` for each row of spec/opcode_table.json. -/

namespace Sys2Proof

/-- The ten registers, in the order of their indices 0 to 9 (R12). A ten-element type, so that a register access out
of range cannot be written down (R13). -/
inductive Reg where
  | ip | acc | r1 | r2 | r3 | r4 | r5 | r6 | r7 | r8
  deriving DecidableEq, Repr

/-- The six entries of the closed opcode table, in the order of the document's table (R53, R59). -/
inductive Opcode where
  | movLitReg | movRegReg | movRegMem | movMemReg | addRegReg | jmpNotEq
  deriving DecidableEq, Repr

/-- The three operand kinds (R51). -/
inductive OperandKind where
  | literalU16 | registerIndex | absoluteAddressU16
  deriving DecidableEq, Repr

/-- A decoded instruction: the operands in encoding order (R53). -/
inductive Instr where
  /-- MOV_LIT_REG, 41_move.md R75: literal, destination. -/
  | movLitReg (lit : Word) (dst : Reg)
  /-- MOV_REG_REG, 41_move.md R76: source first, destination second (decision D2). -/
  | movRegReg (src dst : Reg)
  /-- MOV_REG_MEM, 41_move.md R77: source register, absolute address. -/
  | movRegMem (src : Reg) (addr : Word)
  /-- MOV_MEM_REG, 41_move.md R78: absolute address, destination register. -/
  | movMemReg (addr : Word) (dst : Reg)
  /-- ADD_REG_REG, 42_add.md R83: the two addends; the destination is always ACC. -/
  | addRegReg (a b : Reg)
  /-- JMP_NOT_EQ, 43_jump.md R88: literal compared with ACC, absolute jump target. -/
  | jmpNotEq (lit addr : Word)
  deriving DecidableEq, Repr

end Sys2Proof
end

