-- ==== Sys2Proof/Config.lean ====
section
/-! DEFINITION. The parameters of 00_scope.md R6.
`OPC_*` is a value of `OpcodeMap`, an argument of the decoder, the encoder and the step; the values the spec decides
(D1) are `Config.opcodes` in Sys2Proof/Decode.lean, beside the encoding tables that use them.
`MEM_LEN` and `MEM_INIT` are the length and the contents of the memory block a core is reset with
(`resetWith`, Sys2Proof/Machine/HostInterface.lean); `Config.memLen` is the length `State.reset` takes.
`STEP_BUDGET` is an argument of `runFrom`. -/

namespace Sys2Proof

/-- The six opcode bytes `OPC_*` of R6: one byte for each entry of the table. -/
structure OpcodeMap where
  movLitReg : Byte
  movRegReg : Byte
  movRegMem : Byte
  movMemReg : Byte
  addRegReg : Byte
  jmpNotEq  : Byte
  deriving DecidableEq, Repr

/-- The length of the zero-filled memory `State.reset` starts with. The spec leaves `MEM_LEN` OPEN (D8); 65536 is the
largest length R32 admits. DESIGN CHOICE, unsafe only for a statement about `State.reset` itself (log 2). -/
def Config.memLen : Nat := 65536

end Sys2Proof
end

