-- ==== Sys2Proof/WellFormed.lean ====
section
/-! DEFINITION. What the spec requires of a parameter, a raw operand byte and an instruction before the machine may
be asked to use it. Well-formedness of a Memory Block's contents is `Memory.wf` in Sys2Proof/Machine/Memory.lean. -/

namespace Sys2Proof

/-- "The six `OPC_*` values must be pairwise different" (00_scope.md R6). -/
def OpcodeMap.admissible (m : OpcodeMap) : Bool :=
  decide ([m.movLitReg, m.movRegReg, m.movRegMem, m.movMemReg, m.addRegReg, m.jmpNotEq].Nodup)

/-- A length `try_new` accepts: even and at most 65536 (20_memory.md R32, R33; zero passes, D16). -/
def memLenAdmissible (len : Nat) : Bool :=
  len % 2 == 0 && decide (len ≤ 65536)

/-- A legal register operand byte: one of `0x00 .. 0x09` (30_encoding.md R51, R57). -/
def registerByteLegal (b : Byte) : Bool :=
  decide (b.toNat ≤ 9)

/-- Every literal and every address is legal (R51: "all of `0x0000 .. 0xFFFF`") and a register operand is one of ten
registers by its type (R13), so each of the six forms is well formed with every operand: R58 leaves no other form. The
illegal encodings of R56 and R57 are refused by the decoder and never become an `Instr`. -/
def Instr.wellFormed : Instr → Bool
  | .movLitReg _ _ => true
  | .movRegReg _ _ => true
  | .movRegMem _ _ => true
  | .movMemReg _ _ => true
  | .addRegReg _ _ => true
  | .jmpNotEq _ _ => true

end Sys2Proof
end

