-- ==== Sys2Proof/Decode.lean ====
section
/-! DEFINITION. The encoding of 30_encoding.md: the opcode map, the register numbering, byte order, the decoder, and
after it the encoder. The decoder is written ONCE, over any source of bytes that offers the two fetches of
40_step_cycle.md R66 and R67: a list of bytes here, main memory at IP in Sys2Proof/Machine/Fetch.lean. -/

namespace Sys2Proof

/-! ## Byte order (R7, R39) -/

/-- `hi8(v) = v[15:8]` (R7). -/
def hi8 (v : Word) : Byte := v.extractLsb' 8 8

/-- `lo8(v) = v[7:0]` (R7). -/
def lo8 (v : Word) : Byte := v.extractLsb' 0 8

/-- `a ++ b` of R7: the word whose most significant byte is `a`. -/
def joinBytes (a b : Byte) : Word := a ++ b

/-! ## Registers by index (10_state.md R12, R15) -/

/-- The index of a register (R12). -/
def Reg.index : Reg → Nat
  | .ip => 0
  | .acc => 1
  | .r1 => 2
  | .r2 => 3
  | .r3 => 4
  | .r4 => 5
  | .r5 => 6
  | .r6 => 7
  | .r7 => 8
  | .r8 => 9

/-- The ten registers in enumeration order (R12, R114). -/
def Reg.all : List Reg := [.ip, .acc, .r1, .r2, .r3, .r4, .r5, .r6, .r7, .r8]

/-- Register index decode (R15): the whole byte is compared, so only `0x00 .. 0x09` name a register. -/
def Reg.ofByte (b : Byte) : Option Reg := Reg.all[b.toNat]?

/-- The operand byte that names a register (R51). -/
def Reg.toByte (r : Reg) : Byte := BitVec.ofNat 8 r.index

/-! ## The opcode map (R53, R54; decision D1) -/

/-- `OPC_MOV_LIT_REG` (R6, D1). -/
def Config.opcMovLitReg : Byte := 0x10
/-- `OPC_MOV_REG_REG` (R6, D1). -/
def Config.opcMovRegReg : Byte := 0x11
/-- `OPC_MOV_REG_MEM` (R6, D1). -/
def Config.opcMovRegMem : Byte := 0x12
/-- `OPC_MOV_MEM_REG` (R6, D1). -/
def Config.opcMovMemReg : Byte := 0x13
/-- `OPC_ADD_REG_REG` (R6, D1). -/
def Config.opcAddRegReg : Byte := 0x14
/-- `OPC_JMP_NOT_EQ` (R6, D1). -/
def Config.opcJmpNotEq : Byte := 0x15

/-- The decided values of the six opcode bytes: the spec's own choice D1. UNVERIFIED for the real machine, unsafe there
(log 1). -/
def Config.opcodes : OpcodeMap where
  movLitReg := Config.opcMovLitReg
  movRegReg := Config.opcMovRegReg
  movRegMem := Config.opcMovRegMem
  movMemReg := Config.opcMovMemReg
  addRegReg := Config.opcAddRegReg
  jmpNotEq := Config.opcJmpNotEq

/-- The byte a map gives an opcode. -/
def OpcodeMap.byteOf (m : OpcodeMap) : Opcode → Byte
  | .movLitReg => m.movLitReg
  | .movRegReg => m.movRegReg
  | .movRegMem => m.movRegMem
  | .movMemReg => m.movMemReg
  | .addRegReg => m.addRegReg
  | .jmpNotEq => m.jmpNotEq

/-- The opcode a byte selects, the tests in the order of `Execute` (40_step_cycle.md R69); `none` is an unknown
opcode (R56). -/
def OpcodeMap.lookup (m : OpcodeMap) (op : Byte) : Option Opcode :=
  if op = m.movLitReg then some .movLitReg
  else if op = m.movRegReg then some .movRegReg
  else if op = m.movRegMem then some .movRegMem
  else if op = m.movMemReg then some .movMemReg
  else if op = m.addRegReg then some .addRegReg
  else if op = m.jmpNotEq then some .jmpNotEq
  else none

/-- The operand kinds of each opcode, in encoding order (R53). -/
def Opcode.operands : Opcode → List OperandKind
  | .movLitReg => [.literalU16, .registerIndex]
  | .movRegReg => [.registerIndex, .registerIndex]
  | .movRegMem => [.registerIndex, .absoluteAddressU16]
  | .movMemReg => [.absoluteAddressU16, .registerIndex]
  | .addRegReg => [.registerIndex, .registerIndex]
  | .jmpNotEq => [.literalU16, .absoluteAddressU16]

/-- How many bytes an operand kind takes (R51). -/
def OperandKind.size : OperandKind → Nat
  | .literalU16 => 2
  | .registerIndex => 1
  | .absoluteAddressU16 => 2

/-- The length of an instruction in bytes: the opcode byte and its operands (R52). -/
def Opcode.length (o : Opcode) : Nat := 1 + (o.operands.map OperandKind.size).sum

/-- The opcode an instruction was decoded from. -/
def Instr.opcode : Instr → Opcode
  | .movLitReg _ _ => .movLitReg
  | .movRegReg _ _ => .movRegReg
  | .movRegMem _ _ => .movRegMem
  | .movMemReg _ _ => .movMemReg
  | .addRegReg _ _ => .addRegReg
  | .jmpNotEq _ _ => .jmpNotEq

/-- The length of an instruction in bytes (R52). -/
def Instr.length (i : Instr) : Nat := i.opcode.length

/-! ## The decoder -/

/-- A place bytes are fetched from, with a cursor `σ` that each fetch advances and a failure `ε` that ends the
decode: `Fetch8` and `Fetch16` (40_step_cycle.md R66, R67), and what the two decode errors of R56 and R57 become. -/
structure ByteSource (σ ε : Type) where
  fetch8 : σ → Except ε (Byte × σ)
  fetch16 : σ → Except ε (Word × σ)
  unknownOpcode : Byte → σ → ε
  unknownRegister : Byte → σ → ε

/-- `FetchReg` (40_step_cycle.md R68): the register byte is fetched first and judged after the cursor has moved. -/
def ByteSource.fetchReg {σ ε : Type} (src : ByteSource σ ε) (c : σ) : Except ε (Reg × σ) := do
  let (b, c) ← src.fetch8 c
  match Reg.ofByte b with
  | some r => .ok (r, c)
  | none => .error (src.unknownRegister b c)

/-- The operands of MOV_LIT_REG (R75): literal, register. -/
def ByteSource.fetchMovLitReg {σ ε : Type} (src : ByteSource σ ε) (c : σ) : Except ε (Instr × σ) := do
  let (lit, c) ← src.fetch16 c
  let (dst, c) ← src.fetchReg c
  .ok (.movLitReg lit dst, c)

/-- The operands of MOV_REG_REG (R76): source, destination. -/
def ByteSource.fetchMovRegReg {σ ε : Type} (src : ByteSource σ ε) (c : σ) : Except ε (Instr × σ) := do
  let (s, c) ← src.fetchReg c
  let (d, c) ← src.fetchReg c
  .ok (.movRegReg s d, c)

/-- The operands of MOV_REG_MEM (R77): source register, address. -/
def ByteSource.fetchMovRegMem {σ ε : Type} (src : ByteSource σ ε) (c : σ) : Except ε (Instr × σ) := do
  let (s, c) ← src.fetchReg c
  let (addr, c) ← src.fetch16 c
  .ok (.movRegMem s addr, c)

/-- The operands of MOV_MEM_REG (R78): address, destination register. -/
def ByteSource.fetchMovMemReg {σ ε : Type} (src : ByteSource σ ε) (c : σ) : Except ε (Instr × σ) := do
  let (addr, c) ← src.fetch16 c
  let (dst, c) ← src.fetchReg c
  .ok (.movMemReg addr dst, c)

/-- The operands of ADD_REG_REG (R83): the two addends. -/
def ByteSource.fetchAddRegReg {σ ε : Type} (src : ByteSource σ ε) (c : σ) : Except ε (Instr × σ) := do
  let (a, c) ← src.fetchReg c
  let (b, c) ← src.fetchReg c
  .ok (.addRegReg a b, c)

/-- The operands of JMP_NOT_EQ (R88): literal, target. Both are fetched whether or not the jump is taken. -/
def ByteSource.fetchJmpNotEq {σ ε : Type} (src : ByteSource σ ε) (c : σ) : Except ε (Instr × σ) := do
  let (lit, c) ← src.fetch16 c
  let (addr, c) ← src.fetch16 c
  .ok (.jmpNotEq lit addr, c)

/-- The operand fetches `Execute` dispatches to (40_step_cycle.md R69, R70). -/
def ByteSource.fetchOperands {σ ε : Type} (src : ByteSource σ ε) : Opcode → σ → Except ε (Instr × σ)
  | .movLitReg, c => src.fetchMovLitReg c
  | .movRegReg, c => src.fetchMovRegReg c
  | .movRegMem, c => src.fetchMovRegMem c
  | .movMemReg, c => src.fetchMovMemReg c
  | .addRegReg, c => src.fetchAddRegReg c
  | .jmpNotEq, c => src.fetchJmpNotEq c

/-- One whole decode: the opcode byte, its lookup, then each operand when its turn comes (R55, R69, R70). -/
def ByteSource.decode {σ ε : Type} (src : ByteSource σ ε) (m : OpcodeMap) (c : σ) : Except ε (Instr × σ) := do
  let (op, c) ← src.fetch8 c
  match m.lookup op with
  | some o => src.fetchOperands o c
  | none => .error (src.unknownOpcode op c)

/-- Why a list of bytes is no instruction. -/
inductive DecodeError where
  /-- The bytes end before the instruction does. -/
  | truncated
  /-- The opcode byte is not in the table (R56). -/
  | unknownOpcode (op : Byte)
  /-- A register operand byte is above 9 (R57). -/
  | unknownRegister (b : Byte)
  deriving DecidableEq, Repr

/-- The first byte of a list. -/
def fetchListByte : List Byte → Except DecodeError (Byte × List Byte)
  | b :: rest => .ok (b, rest)
  | [] => .error .truncated

/-- The first two bytes of a list, most significant first (R39). -/
def fetchListWord : List Byte → Except DecodeError (Word × List Byte)
  | a :: b :: rest => .ok (joinBytes a b, rest)
  | _ => .error .truncated

/-- A list of bytes, in memory order, as a source. -/
def listSource : ByteSource (List Byte) DecodeError where
  fetch8 := fetchListByte
  fetch16 := fetchListWord
  unknownOpcode := fun b _ => .unknownOpcode b
  unknownRegister := fun b _ => .unknownRegister b

/-- The decoder on bytes in memory order, for any opcode map: the instruction and the bytes after it. -/
def decodeWith (m : OpcodeMap) (bytes : List Byte) : Except DecodeError (Instr × List Byte) :=
  listSource.decode m bytes

/-- The decoder under the decided opcode values (R54). -/
def decode (bytes : List Byte) : Except DecodeError (Instr × List Byte) :=
  decodeWith Config.opcodes bytes

/-! ## The encoder -/

/-- A 16-bit operand in the instruction stream, high byte first (R51). -/
def wordBytes (v : Word) : List Byte := [hi8 v, lo8 v]

/-- The operand bytes of an instruction, in encoding order (R52). -/
def Instr.operandBytes : Instr → List Byte
  | .movLitReg lit dst => wordBytes lit ++ [dst.toByte]
  | .movRegReg src dst => [src.toByte, dst.toByte]
  | .movRegMem src addr => src.toByte :: wordBytes addr
  | .movMemReg addr dst => wordBytes addr ++ [dst.toByte]
  | .addRegReg a b => [a.toByte, b.toByte]
  | .jmpNotEq lit addr => wordBytes lit ++ wordBytes addr

/-- The bytes of an instruction, in memory order, for any opcode map (R52, R53). -/
def encodeWith (m : OpcodeMap) (i : Instr) : List Byte := m.byteOf i.opcode :: i.operandBytes

/-- The bytes of an instruction under the decided opcode values. -/
def encode (i : Instr) : List Byte := encodeWith Config.opcodes i

/-! ## Words of spec/opcode_table.json -/

/-- The bytes, in memory order, of a table word of `nbits` bits: spec/opcode_table.json reads the whole instruction as
one big-endian integer, byte 0 its most significant byte: DEDUCED, safe (log 11). Padded with zero bytes up to the longest
instruction, five bytes. -/
def tableWordBytes (nbits w : Nat) : List Byte :=
  let given := (List.range (nbits / 8)).map fun k => BitVec.ofNat 8 (w >>> (nbits - 8 * (k + 1)))
  (given ++ List.replicate 5 0).take 5

/-- The instruction the decoder reads from a word of spec/opcode_table.json; `none` where it refuses. -/
def decodeTableWord (nbits w : Nat) : Option Instr :=
  match decode (tableWordBytes nbits w) with
  | .ok (i, _) => some i
  | .error _ => none

end Sys2Proof
end

