-- ==== Sys2Proof/Machine/State.lean ====
section
/-! DEFINITION. The architectural state (10_state.md R10: the register file, main memory and the fault latch, and
nothing else), the reasons a step can stop, and the state after reset. Plain data. -/

namespace Sys2Proof.Machine

/-- A Memory Block (20_memory.md R32): its length and its bytes. Only the bytes that are not `0x00` are listed, by
offset, in rising order (`Memory.wf`): a byte nothing has written reads as `0x00` (R33, 10_state.md R27; the
spec's decision D9, UNVERIFIED for a host that builds memory otherwise, unsafe there, log 3). -/
structure Memory where
  len : Nat
  cells : List Host.Cell
  deriving DecidableEq, Repr

/-- The register file as its ten 16-bit cells (R10, R12). Its 20 bytes `rf[0..19]` (R11) are the same storage, computed
by `RegFile.toBlock`: DESIGN CHOICE, safe (log 4). -/
structure RegFile where
  ip : Word
  acc : Word
  r1 : Word
  r2 : Word
  r3 : Word
  r4 : Word
  r5 : Word
  r6 : Word
  r7 : Word
  r8 : Word
  deriving DecidableEq, Repr

/-- A fault record `(cause, info)` (60_exceptions.md R100, R105). These are values of the fault latch; recording one is
`State.raise`. -/
inductive FaultRecord where
  /-- A main-memory access failed its bounds test; the offset presented to the port (R101). -/
  | memOutOfBounds (offset : Word)
  /-- The opcode byte is not in the table (R102). -/
  | unknownOpcode (op : Byte)
  /-- A register operand byte is above 9 (R103). -/
  | unknownRegister (b : Byte)
  /-- A fetch would advance IP past `0xFFFF`; IP before the refused advance (R104). -/
  | ipOverflow (ip : Word)
  deriving DecidableEq, Repr

/-- The whole state of the core (R10). The length of main memory is carried by its block, so that a statement about
every state is about every `MEM_LEN`. -/
structure State where
  regs : RegFile
  mem : Memory
  fault : Option FaultRecord
  deriving DecidableEq, Repr

/-- Why a step answers no next state. -/
inductive Fault where
  /-- Raised by `step` alone, at a state whose fault latch is set: "while `fault` is not `none`, `step` has no
  transition" (60_exceptions.md R107, R109). Carries the latched record. Safe: it is the machine's own stop. The step
  that raises a fault answers a NEXT state, the one of R108 with the latch set. -/
  | halted (record : FaultRecord)
  deriving DecidableEq, Repr

/-- Why a step is refused. -/
inductive Refusal where
  /-- An instruction without a meaning. Raised by nothing in this model: all six have one. Safe. -/
  | notModelled (mnemonic : String)
  deriving DecidableEq, Repr

/-- The register file after reset: "zero-initializes the register file (IP starts at 0)" (R27). -/
def RegFile.zero : RegFile :=
  { ip := 0, acc := 0, r1 := 0, r2 := 0, r3 := 0, r4 := 0, r5 := 0, r6 := 0, r7 := 0, r8 := 0 }

/-- The state right after reset (R27), over a memory of `Config.memLen` bytes into which the host loaded nothing.
Reset with a loaded memory (70_reset_and_hazards.md R120) is `resetWith`. -/
def State.reset : State :=
  { regs := RegFile.zero, mem := { len := Config.memLen, cells := [] }, fault := none }

end Sys2Proof.Machine
end

