-- ==== Sys2Proof/Machine/Memory.lean ====
section
/-! DEFINITION. The Memory Block and its port (20_memory.md R30 to R38, R45): construction, the four operations, the
iteration over its bytes, and the canonical form of its list of cells. -/

namespace Sys2Proof.Machine

/-- What an offset that no cell lists reads as: `0x00`, the value `try_new` fills a block with (R33, D9; log 3). -/
def unlistedByte : Byte := 0

/-- The byte a list of cells holds at an offset. -/
def cellByte (a : Nat) : List Host.Cell → Byte
  | [] => unlistedByte
  | c :: rest => if c.1 = a then c.2 else cellByte a rest

/-- The cells without the one at `a`. -/
def eraseCell (a : Nat) (cells : List Host.Cell) : List Host.Cell :=
  cells.filter fun c => c.1 != a

/-- A cell put before the first one of a greater offset. -/
def insertCell (a : Nat) (v : Byte) : List Host.Cell → List Host.Cell
  | [] => [(a, v)]
  | c :: rest => if a < c.1 then (a, v) :: c :: rest else c :: insertCell a v rest

/-- The cells with the byte at `a` made `v`; a byte that an unlisted offset reads as is not listed. -/
def storeCell (a : Nat) (v : Byte) (cells : List Host.Cell) : List Host.Cell :=
  if v = unlistedByte then eraseCell a cells else insertCell a v (eraseCell a cells)

/-- `b[a]`, the byte of a block at an offset (R32). The port tests the bounds; this does not. -/
def Memory.byteAt (m : Memory) (a : Nat) : Byte := cellByte a m.cells

/-- `b[a] <- v` (R32), bounds not tested. -/
def Memory.storeByte (m : Memory) (a : Nat) (v : Byte) : Memory :=
  { m with cells := storeCell a v m.cells }

/-- The canonical form, and the two invariants of R32: the length is even and at most 65536; the listed offsets rise
strictly and lie inside the block; no listed byte is one that an unlisted offset reads as. -/
abbrev Memory.wf (m : Memory) : Prop :=
  memLenAdmissible m.len = true ∧ m.cells.Pairwise (fun c d => c.1 < d.1) ∧
    ∀ c ∈ m.cells, c.1 < m.len ∧ c.2 ≠ unlistedByte

/-- The descriptive construction error of `try_new` (R33, 60_exceptions.md R111): not a fault of the core. -/
inductive ConstructionError where
  | odd | tooLarge | oddAndTooLarge
  deriving DecidableEq, Repr

/-- `try_new(L)` (R33): a zero-initialised block exactly when `L` is even and at most 65536. Zero is admitted (D16);
there is no unchecked constructor (D14). -/
def Memory.tryNew (len : Nat) : Except ConstructionError Memory :=
  if len % 2 = 0 then
    if len ≤ 65536 then .ok { len := len, cells := [] } else .error .tooLarge
  else
    if len ≤ 65536 then .error .odd else .error .oddAndTooLarge

/-- The failure of a port read (R31). -/
inductive PortError where
  | outOfBounds
  deriving DecidableEq, Repr

/-- The status of a port write that succeeded (R31). -/
def statusOk : Nat := 0

/-- The status of a port write out of bounds: the value the reference uses (R31, D19). -/
def statusOutOfBounds : Nat := 1

/-- `read_u8(offset)` (R34). The offset is a natural number, not truncated (R31, D10). -/
def Memory.readU8 (m : Memory) (off : Nat) : Except PortError Byte :=
  if off < m.len then .ok (m.byteAt off) else .error .outOfBounds

/-- `read_u16(offset)` (R35): big-endian; the bound is `offset + 2 <= L`. -/
def Memory.readU16 (m : Memory) (off : Nat) : Except PortError Word :=
  if off + 2 ≤ m.len then .ok (joinBytes (m.byteAt off) (m.byteAt (off + 1))) else .error .outOfBounds

/-- `write_u8(offset, value)` (R36): the status and the block after it; a failed write stores nothing (R38). -/
def Memory.writeU8 (m : Memory) (off : Nat) (v : Byte) : Nat × Memory :=
  if off < m.len then (statusOk, m.storeByte off v) else (statusOutOfBounds, m)

/-- `write_u16(offset, value)` (R37): big-endian; a failed write stores not one byte (R38). -/
def Memory.writeU16 (m : Memory) (off : Nat) (v : Word) : Nat × Memory :=
  if off + 2 ≤ m.len then
    (statusOk, (m.storeByte off (hi8 v)).storeByte (off + 1) (lo8 v))
  else (statusOutOfBounds, m)

/-- The raw bytes `b[0], …, b[L-1]` in storage order (R45). -/
def Memory.bytes (m : Memory) : List Byte := (List.range m.len).map m.byteAt

/-- The bytes of a block from an offset on, in storage order, at most `n` of them. -/
def Memory.window (m : Memory) (off n : Nat) : List Byte :=
  (List.range (min n (m.len - off))).map fun k => m.byteAt (off + k)

/-- Bytes put with `write_u8` at an offset and the offsets after it; a byte out of bounds is not stored. -/
def Memory.loadBytes (m : Memory) (off : Nat) : List Byte → Memory
  | [] => m
  | b :: rest => (m.writeU8 off b).2.loadBytes (off + 1) rest

end Sys2Proof.Machine
end

