-- ==== Sys2Proof/Machine/RegisterFile.lean ====
section
/-! DEFINITION. The register file (10_state.md R11 to R15): the two accessors every register access goes through, the
index decode, and the register file seen as the 20-byte Memory Block it is. -/

namespace Sys2Proof.Machine

/-- `x[i]` (R13). A read has no side effect and cannot fail. -/
def RegFile.get (x : RegFile) : Reg → Word
  | .ip => x.ip
  | .acc => x.acc
  | .r1 => x.r1
  | .r2 => x.r2
  | .r3 => x.r3
  | .r4 => x.r4
  | .r5 => x.r5
  | .r6 => x.r6
  | .r7 => x.r7
  | .r8 => x.r8

/-- `x[i] <- v` (R14): all sixteen bits of every cell are writable, IP and ACC included. -/
def RegFile.set (x : RegFile) (r : Reg) (v : Word) : RegFile :=
  match r with
  | .ip => { x with ip := v }
  | .acc => { x with acc := v }
  | .r1 => { x with r1 := v }
  | .r2 => { x with r2 := v }
  | .r3 => { x with r3 := v }
  | .r4 => { x with r4 := v }
  | .r5 => { x with r5 := v }
  | .r6 => { x with r6 := v }
  | .r7 => { x with r7 := v }
  | .r8 => { x with r8 := v }

/-- `byte_offset = register_index * 2` (R11). -/
def Reg.byteOffset (r : Reg) : Nat := 2 * r.index

/-- `offset_for(raw_index)` (R15): the byte offset of the cell, or the fault `UnknownRegister(raw_index)`. -/
def offsetFor (raw : Byte) : Except FaultRecord Nat :=
  match Reg.ofByte raw with
  | some r => .ok (Reg.byteOffset r)
  | none => .error (.unknownRegister raw)

/-- The length of the register file as a Memory Block, `register_count * 2` (R11). -/
def RegFile.blockLen : Nat := 2 * Reg.all.length

/-- The register file as the 20-byte Memory Block of R11: cell `i` at offset `2*i`, big-endian. -/
def RegFile.toBlock (x : RegFile) : Memory :=
  Reg.all.foldl (fun b r => (b.writeU16 (Reg.byteOffset r) (x.get r)).2) { len := RegFile.blockLen, cells := [] }

/-- `rf[k]` (R11). -/
def RegFile.byte (x : RegFile) (k : Nat) : Byte := x.toBlock.byteAt k

end Sys2Proof.Machine
end

