-- ==== Sys2Proof/Machine/Ops.lean ====
section
/-! DEFINITION. The named operations over the state that every fetch and every meaning uses: registers, the CPU's
memory primitives (20_memory.md R43), and raising a fault (60_exceptions.md R107). -/

namespace Sys2Proof.Machine

/-! ## Registers -/

/-- `x[i]` of the core's register file (R13). -/
def State.readReg (s : State) (r : Reg) : Word := s.regs.get r

/-- `x[i] <- v` on the core's register file (R14). -/
def State.writeReg (s : State) (r : Reg) (v : Word) : State := { s with regs := s.regs.set r v }

/-- `pc`, another name of `x[0]` (R16). -/
def State.pc (s : State) : Word := s.readReg .ip

/-- `pc <- target`: the same as `x[0] <- target`, and not checked (R16, 43_jump.md R91). -/
def State.setPc (s : State) (target : Word) : State := s.writeReg .ip target

/-! ## Main memory (R43): `addr` is a `u16`, used as the physical offset unchanged (R49) -/

/-- The block of main memory replaced. -/
def State.withMem (s : State) (m : Memory) : State := { s with mem := m }

/-- `MemRead(addr, 1)`. -/
def State.memRead8 (s : State) (addr : Word) : Except FaultRecord Byte :=
  match s.mem.readU8 addr.toNat with
  | .ok b => .ok b
  | .error .outOfBounds => .error (.memOutOfBounds addr)

/-- `MemRead(addr, 2)`. -/
def State.memRead16 (s : State) (addr : Word) : Except FaultRecord Word :=
  match s.mem.readU16 addr.toNat with
  | .ok w => .ok w
  | .error .outOfBounds => .error (.memOutOfBounds addr)

/-- `MemWrite(addr, 1, v)`, "defined for completeness; no instruction uses it" (R43). -/
def State.memWrite8 (s : State) (addr : Word) (v : Byte) : Except FaultRecord State :=
  match s.mem.writeU8 addr.toNat v with
  | (status, m) => if status = statusOk then .ok (s.withMem m) else .error (.memOutOfBounds addr)

/-- `MemWrite(addr, 2, v)`: any non-zero status is the fault (R43, C8). -/
def State.memWrite16 (s : State) (addr : Word) (v : Word) : Except FaultRecord State :=
  match s.mem.writeU16 addr.toNat v with
  | (status, m) => if status = statusOk then .ok (s.withMem m) else .error (.memOutOfBounds addr)

/-! ## Faults -/

/-- The cause code of a fault (60_exceptions.md R105): labels of the spec's decision D7, safe (log 8). -/
def FaultRecord.code : FaultRecord → Nat
  | .memOutOfBounds _ => 1
  | .unknownOpcode _ => 2
  | .unknownRegister _ => 3
  | .ipOverflow _ => 4

/-- The recorded value of a fault (R105), as a number. -/
def FaultRecord.info : FaultRecord → Nat
  | .memOutOfBounds offset => offset.toNat
  | .unknownOpcode op => op.toNat
  | .unknownRegister b => b.toNat
  | .ipOverflow ip => ip.toNat

/-- The width in bits of the recorded value (R105). -/
def FaultRecord.infoWidth : FaultRecord → Nat
  | .memOutOfBounds _ => 16
  | .unknownOpcode _ => 8
  | .unknownRegister _ => 8
  | .ipOverflow _ => 16

/-- TAKING AN EXCEPTION, the one way: `raise F(info)` sets `fault <- (code of F, info)` and ends the step (R107). "There
is no handler, no vector table, no saved-state register, no stack push, no mode change: control goes nowhere." There is
no return from it either (R109), so no operation undoes it: only reset clears the latch. -/
def State.raise (s : State) (f : FaultRecord) : State := { s with fault := some f }

/-- The end of an effect that makes at most one data access (40_step_cycle.md R70): the state the access gives, or the
fault it raises, everything else as it was when the effect began (R108). -/
def State.conclude (s : State) : Except FaultRecord State → Host.Outcome State Fault Refusal
  | .ok t => .next t
  | .error f => .next (s.raise f)

end Sys2Proof.Machine
end

