-- ==== Sys2Proof/Machine/Operands.lean ====
section
/-! DEFINITION. The operand forms (30_encoding.md R51; 41_move.md R79, R80): a literal, a register, and an absolute
address. There is no other addressing mode and every operand moves sixteen bits. -/

namespace Sys2Proof.Machine

/-- A literal operand: all sixteen bits, no extension, no scaling (R51). -/
def literalValue (lit : Word) : Word := lit

/-- A register as a source. Read in the effect, after every operand byte has been fetched, so IP reads as the offset of
the next instruction (40_step_cycle.md R70, R72; the spec's decision D3, UNVERIFIED, unsafe for the real machine, log 7). -/
def State.source (s : State) (r : Reg) : Word := s.readReg r

/-- A register as a destination; IP is replaced, which is a jump (43_jump.md R89). -/
def State.destination (s : State) (r : Reg) (v : Word) : State := s.writeReg r v

/-- The effective address of an absolute address operand is the operand itself (R79). -/
def effectiveAddress (addr : Word) : Word := addr

/-- The word an absolute address operand names, read (R78). -/
def State.loadOperand (s : State) (addr : Word) : Except FaultRecord Word := s.memRead16 (effectiveAddress addr)

/-- The word an absolute address operand names, written (R77). -/
def State.storeOperand (s : State) (addr v : Word) : Except FaultRecord State := s.memWrite16 (effectiveAddress addr) v

end Sys2Proof.Machine
end

