-- ==== Sys2Proof/Machine/Flags.lean ====
section
/-! DEFINITION. The machine has no flag, condition code or predicate of any kind (10_state.md R22), so there is no flag
to compute. What stands here is what other machines would derive flags from: the one sum, which records nothing of its
carry, and the one condition, which is computed from values and never stored. -/

namespace Sys2Proof.Machine

/-- `(p + q) mod 65536` (42_add.md R84): the exact sum of naturals, narrowed to sixteen bits; no carry, no overflow. -/
def addWrap (p q : Word) : Word := BitVec.ofNat 16 (p.toNat + q.toNat)

/-- The condition of JMP_NOT_EQ (43_jump.md R88, 42_add.md R85): the two 16-bit patterns differ. -/
def jumpTaken (lit acc : Word) : Bool := decide (lit ≠ acc)

end Sys2Proof.Machine
end

