-- ==== Sys2Proof/Machine/Fetch.lean ====
section
/-! DEFINITION. The fetch primitives of 40_step_cycle.md over main memory at IP. A fetch that fails has raised its
fault: it answers the state whose latch is set, with IP just past the last unit fetched (60_exceptions.md R108). -/

namespace Sys2Proof.Machine

/-- IP moved past `n` fetched bytes, or the fault `IpOverflow` with IP unchanged (R66, R67). The fault is the spec's decision D4:
UNVERIFIED for the real machine, safe (log 6). -/
def State.advance (s : State) (n : Nat) : Except State State :=
  if s.pc.toNat + n > 0xFFFF then .error (s.raise (.ipOverflow s.pc))
  else .ok (s.setPc (BitVec.ofNat 16 (s.pc.toNat + n)))

/-- `Fetch8()` (R66): the read first, the increment second. -/
def State.fetch8 (s : State) : Except State (Byte × State) :=
  match s.memRead8 s.pc with
  | .error f => .error (s.raise f)
  | .ok b =>
    match s.advance 1 with
    | .error t => .error t
    | .ok t => .ok (b, t)

/-- `Fetch16()` (R67): one 2-byte read of the port, not two `Fetch8` calls. -/
def State.fetch16 (s : State) : Except State (Word × State) :=
  match s.memRead16 s.pc with
  | .error f => .error (s.raise f)
  | .ok w =>
    match s.advance 2 with
    | .error t => .error t
    | .ok t => .ok (w, t)

/-- Main memory at IP as the decoder's source; the two decode errors are raised with IP already past the bad byte
(60_exceptions.md R102, R103). -/
def pcSource : ByteSource State State where
  fetch8 := State.fetch8
  fetch16 := State.fetch16
  unknownOpcode := fun op s => s.raise (.unknownOpcode op)
  unknownRegister := fun b s => s.raise (.unknownRegister b)

/-- The fetches of one step (40_step_cycle.md R65, R69, R70): the instruction and the state at which its effect runs,
with `pc = A + length`; or the state of the fault that was raised. -/
def State.fetchInstr (m : OpcodeMap) (s : State) : Except State (Instr × State) :=
  pcSource.decode m s

end Sys2Proof.Machine
end

