-- ==== Sys2Proof/Machine/Add.lean ====
section
/-! DEFINITION. The effect of the one arithmetic instruction (42_add.md). -/

namespace Sys2Proof.Machine

/-- ADD_REG_REG (R83): `ACC <- (x[a] + x[b]) mod 65536`; both sources are read before ACC is written. -/
def execAddRegReg (a b : Reg) (s : State) : Host.Outcome State Fault Refusal :=
  .next (s.destination .acc (addWrap (s.source a) (s.source b)))

end Sys2Proof.Machine
end

