-- ==== Sys2Proof/Machine/Jump.lean ====
section
/-! DEFINITION. The effect of the one jump (43_jump.md). -/

namespace Sys2Proof.Machine

/-- JMP_NOT_EQ (R88): `if lit != ACC then pc <- addr`; the target is not tested (R91). -/
def execJmpNotEq (lit addr : Word) (s : State) : Host.Outcome State Fault Refusal :=
  .next (if jumpTaken (literalValue lit) (s.source .acc) then s.setPc (effectiveAddress addr) else s)

end Sys2Proof.Machine
end

