-- ==== Sys2Proof/Machine/Move.lean ====
section
/-! DEFINITION. The effects of the four moves (41_move.md). An effect runs at the state after the operand fetches, where
`pc = A + length` (40_step_cycle.md R72). -/

namespace Sys2Proof.Machine

/-- MOV_LIT_REG (R75): `x[d] <- lit`. -/
def execMovLitReg (lit : Word) (dst : Reg) (s : State) : Host.Outcome State Fault Refusal :=
  .next (s.destination dst (literalValue lit))

/-- MOV_REG_REG (R76): `x[d] <- x[s]`. Which encoded register is the source is the spec's decision D2: UNVERIFIED for the
real machine, unsafe there (log 7). -/
def execMovRegReg (src dst : Reg) (s : State) : Host.Outcome State Fault Refusal :=
  .next (s.destination dst (s.source src))

/-- MOV_REG_MEM (R77): `MemWrite(addr, 2, x[s])`; out of bounds it raises `MemOutOfBounds(addr)` and stores nothing. -/
def execMovRegMem (src : Reg) (addr : Word) (s : State) : Host.Outcome State Fault Refusal :=
  s.conclude (s.storeOperand addr (s.source src))

/-- MOV_MEM_REG (R78): `x[d] <- MemRead(addr, 2)`; out of bounds it raises `MemOutOfBounds(addr)`, `x[d]` unchanged. -/
def execMovMemReg (addr : Word) (dst : Reg) (s : State) : Host.Outcome State Fault Refusal :=
  s.conclude ((s.loadOperand addr).map fun v => s.destination dst v)

end Sys2Proof.Machine
end

