-- ==== Sys2Proof/Machine/Dispatch.lean ====
section
/-! DEFINITION. The effect of every instruction, one arm each (40_step_cycle.md R69). -/

namespace Sys2Proof.Machine

def exec (i : Instr) (s : State) : Host.Outcome State Fault Refusal :=
  match i with
  | .movLitReg lit dst => Sys2Proof.Machine.execMovLitReg lit dst s
  | .movRegReg src dst => Sys2Proof.Machine.execMovRegReg src dst s
  | .movRegMem src addr => Sys2Proof.Machine.execMovRegMem src addr s
  | .movMemReg addr dst => Sys2Proof.Machine.execMovMemReg addr dst s
  | .addRegReg a b => Sys2Proof.Machine.execAddRegReg a b s
  | .jmpNotEq lit addr => Sys2Proof.Machine.execJmpNotEq lit addr s

end Sys2Proof.Machine
end

