-- ==== Sys2Proof/Machine/Step.lean ====
section
/-! DEFINITION. One step (40_step_cycle.md R65), and an instruction placed where it is fetched. -/

namespace Sys2Proof.Machine

/-- `step()` for any opcode map: a core whose latch is set takes no step (60_exceptions.md R107); otherwise the fetches,
and then the effect at the state they leave. A fault raised on the way is a next state with the latch set: DEDUCED from R107 and
R108, safe (log 5). -/
def stepWith (m : OpcodeMap) (s : State) : Host.Outcome State Fault Refusal :=
  match s.fault with
  | some record => .fault (.halted record)
  | none =>
    match s.fetchInstr m with
    | .error t => .next t
    | .ok (i, t) => exec i t

/-- `step()` under the decided opcode values (D1). -/
def step (s : State) : Host.Outcome State Fault Refusal := stepWith Config.opcodes s

/-- The bytes of a word of spec/opcode_table.json, padded with zero bytes to five, in memory from IP on: what the host
does when it loads a program before reset (70_reset_and_hazards.md R123; log 3, log 11). Bytes outside memory are not
stored; nothing else changes. -/
def State.withFetchWord (s : State) (nbits w : Nat) : State :=
  s.withMem (s.mem.loadBytes s.pc.toNat (tableWordBytes nbits w))

end Sys2Proof.Machine
end

