-- ==== Sys2Proof/Machine/HostInterface.lean ====
section
/-! DEFINITION. The operations the block offers to the host (70_reset_and_hazards.md R123 to R126): building a memory,
reset, runs of steps, and inspection, which changes nothing. After reset there is no operation that writes (R125). -/

namespace Sys2Proof.Machine

/-- Building a memory: `try_new`, then port writes of the image from offset `off` on (R123, R124). -/
def buildMemory (len off : Nat) (image : List Byte) : Except ConstructionError Memory :=
  (Memory.tryNew len).map fun m => m.loadBytes off image

/-- Reset, `Cpu::new`: all ten registers zero, the loaded memory, no fault (R120). It depends on no previous state. -/
def resetWith (mem : Memory) : State := { regs := RegFile.zero, mem := mem, fault := none }

/-- Read register: `x[i]` (R124). -/
def hostReadRegister (s : State) (r : Reg) : Word := s.readReg r

/-- Read memory range: the bytes from an offset on, for a range inside `0 .. MEM_LEN` (R124, 20_memory.md R45). -/
def hostReadMemory (s : State) (off len : Nat) : Option (List Byte) :=
  if off + len ≤ s.mem.len then some ((List.range len).map fun k => s.mem.byteAt (off + k)) else none

/-- Read fault latch: `none`, or the cause code and the recorded value (R124, 60_exceptions.md R105). -/
def hostReadFault (s : State) : Option (Nat × Nat) := s.fault.map fun f => (f.code, f.info)

/-- Register dump: the ten registers in the order IP, ACC, R1 .. R8 (R124, 60_exceptions.md R114). -/
def hostRegisterDump (s : State) : List (Reg × Word) := Reg.all.map fun r => (r, s.readReg r)

/-- How a run ends (R126). A run asked of a halted core ends at step 0: DESIGN CHOICE, safe (log 14). -/
inductive RunEnd where
  /-- All its steps completed and the latch is clear. -/
  | completed (s : State)
  /-- Step `k` raised the fault `record`, or, with `k = 0`, the core was halted when the run began. -/
  | faulted (k : Nat) (record : FaultRecord) (s : State)
  /-- A step was refused. No step of this model is. -/
  | refused (r : Refusal)
  deriving DecidableEq, Repr

/-- `n` invocations of `step`, stopping early at a fault (R126); `done` counts the steps already taken. -/
def runFrom (m : OpcodeMap) (done : Nat) : Nat → State → RunEnd
  | 0, s => .completed s
  | n + 1, s =>
    match stepWith m s with
    | .next t =>
      match t.fault with
      | none => runFrom m (done + 1) n t
      | some record => .faulted (done + 1) record t
    | .fault (.halted record) => .faulted done record s
    | .refused r => .refused r

/-- A run: reset with a loaded memory, then `n` steps (R126). -/
def runProgram (mem : Memory) (n : Nat) : RunEnd := runFrom Config.opcodes 0 n (resetWith mem)

end Sys2Proof.Machine
end

