-- ==== Sys2Proof/Safety.lean ====
section
/-! DEFINITION. What counts as a safe state, a step that completes and a good run, in the terms claims use
(60_exceptions.md R107, R108; 70_reset_and_hazards.md R126). -/

namespace Sys2Proof.Machine

/-- The register operands an instruction names (10_state.md R21). -/
def registersNamed : Instr → List Reg
  | .movLitReg _ dst => [dst]
  | .movRegReg src dst => [src, dst]
  | .movRegMem src _ => [src]
  | .movMemReg _ dst => [dst]
  | .addRegReg a b => [a, b]
  | .jmpNotEq _ _ => []

/-- The register an instruction's effect may write: the named destination of a move into a register, ACC for the
addition, IP for the jump, none for the store (40_step_cycle.md R71). -/
def registerWritten : Instr → Option Reg
  | .movLitReg _ dst => some dst
  | .movRegReg _ dst => some dst
  | .movRegMem _ _ => none
  | .movMemReg _ dst => some dst
  | .addRegReg _ _ => some .acc
  | .jmpNotEq _ _ => some .ip

/-- Main memory reads the same at every offset, and has the same length. -/
abbrev SameMemory (s t : State) : Prop :=
  t.mem.len = s.mem.len ∧ ∀ a, t.mem.byteAt a = s.mem.byteAt a

/-- Every register but those listed reads the same. -/
abbrev SameRegsBut (written : List Reg) (s t : State) : Prop :=
  ∀ q, q ∉ written → t.readReg q = s.readReg q

/-- The bytes of main memory at IP, at most five: as many as the longest instruction has (30_encoding.md R52). -/
def State.codeAtPc (s : State) : List Byte := s.mem.window s.pc.toNat 5

/-- IP moved to `n`, as a fetch leaves it. -/
def State.atPc (s : State) (n : Nat) : State := s.setPc (BitVec.ofNat 16 n)

/-- The byte `k` bytes past IP. -/
def State.codeByte (s : State) (k : Nat) : Byte := s.mem.byteAt (s.pc.toNat + k)

/-- The big-endian word `k` bytes past IP. -/
def State.codeWord (s : State) (k : Nat) : Word := joinBytes (s.codeByte k) (s.codeByte (k + 1))

/-- The outcome of a step that raises `f` with IP left at `n` (60_exceptions.md R107, R108; log 5). -/
def State.raisesAt (s : State) (n : Nat) (f : FaultRecord) : Host.Outcome State Fault Refusal :=
  .next ((s.atPc n).raise f)

/-- The core can step: its latch is clear (R107). -/
abbrev State.running (s : State) : Prop := s.fault = none

/-- A step that completes: a next state with the latch clear (40_step_cycle.md R65). -/
abbrev CompletesTo (m : OpcodeMap) (s t : State) : Prop := stepWith m s = .next t ∧ t.fault = none

/-- A step that raises: a next state with the latch set (40_step_cycle.md R65). -/
abbrev RaisesTo (m : OpcodeMap) (s : State) (f : FaultRecord) (t : State) : Prop :=
  stepWith m s = .next t ∧ t.fault = some f

/-- The latched record is one the machine could have raised at this state: its cause condition (60_exceptions.md R101
to R104) holds. Nothing latched is always justified. -/
def State.latchJustified (m : OpcodeMap) (s : State) : Prop :=
  match s.fault with
  | none => True
  | some (.memOutOfBounds off) => s.mem.len < off.toNat + 2
  | some (.unknownOpcode op) => m.lookup op = none
  | some (.unknownRegister b) => 9 < b.toNat
  | some (.ipOverflow ip) => s.pc = ip ∧ 0xFFFE ≤ ip.toNat ∧ s.mem.len = 65536

/-- A run that ended well: all its steps completed (R126: "a fault is never a good final state"). -/
def RunEnd.good : RunEnd → Bool
  | .completed _ => true
  | .faulted _ _ _ => false
  | .refused _ => false

end Sys2Proof.Machine
end

