-- ==== Sys2Proof/Certificates/Slice0/Obligations.lean ====
section
/-! DEFINITION. The statements about this model, from the rules of spec/. `A` in a docstring is the offset of the opcode
byte, `s.pc`. A statement about a step is made for every opcode map; `step` is `stepWith Config.opcodes` by definition.
Where a docstring says "log <n>", the clause is the model's reading or choice named there; where it says "D<n>", it is the
spec's own decision in spec/92_eei_decisions.md. -/

open Sys2Proof Sys2Proof.Machine

/-! ## The register file -/

/-- R13, R14: the register file is the 20-byte Memory Block of R11. The model stores ten cells and computes the twenty
bytes from them (its own design choice, log 4), and this statement is what justifies that choice. Reading `x[i]` is reading the word at `2*i`, which
never fails, and is `rf[2*i] ++ rf[2*i + 1]`; writing `x[i]` is writing that word, which sets `rf[2*i]` and
`rf[2*i + 1]` and changes no other byte. -/
def Obligations.RegisterFileIsTwentyByteBlock : Prop :=
  ∀ (x : RegFile) (r : Reg) (v : Word),
    x.toBlock.len = 20 ∧
    x.toBlock.readU16 (2 * r.index) = .ok (x.get r) ∧
    x.get r = joinBytes (x.byte (2 * r.index)) (x.byte (2 * r.index + 1)) ∧
    x.toBlock.writeU16 (2 * r.index) v = (0, (x.set r v).toBlock) ∧
    (x.set r v).byte (2 * r.index) = hi8 v ∧
    (x.set r v).byte (2 * r.index + 1) = lo8 v ∧
    ∀ k, k ≠ 2 * r.index → k ≠ 2 * r.index + 1 → (x.set r v).byte k = x.byte k

/-- 10_state.md section 2: a write to one of the ten registers is read back from it, IP and ACC included, and changes no
other register, no byte of memory and not the latch. -/
def Obligations.RegisterWriteIsReadBack : Prop :=
  ∀ (s : State) (r : Reg) (v : Word),
    (s.writeReg r v).readReg r = v ∧ SameRegsBut [r] s (s.writeReg r v) ∧
    SameMemory s (s.writeReg r v) ∧ (s.writeReg r v).fault = s.fault

/-- R15: `offset_for` accepts exactly the ten bytes `0x00 .. 0x09`, in index order, and refuses the other 246 as
`UnknownRegister(raw_index)`. -/
def Obligations.RegisterIndexDecode : Prop :=
  ∀ b : Byte,
    (b.toNat ≤ 9 → ∃ r, Reg.ofByte b = some r ∧ r.index = b.toNat ∧ offsetFor b = .ok (2 * b.toNat)) ∧
    (10 ≤ b.toNat → Reg.ofByte b = none ∧ offsetFor b = .error (.unknownRegister b))

/-! ## The Memory Block and its port -/

/-- R34, R35: a read answers the byte, or the big-endian word `b[offset] * 256 + b[offset+1]`, exactly when it lies in
the block, and `OutOfBounds` otherwise. -/
def Obligations.PortReads : Prop :=
  ∀ (m : Memory) (off : Nat),
    (off < m.len → m.readU8 off = .ok (m.byteAt off)) ∧
    (m.len ≤ off → m.readU8 off = .error .outOfBounds) ∧
    (off + 2 ≤ m.len → ∃ w, m.readU16 off = .ok w ∧
      w.toNat = (m.byteAt off).toNat * 256 + (m.byteAt (off + 1)).toNat) ∧
    (m.len < off + 2 → m.readU16 off = .error .outOfBounds)

/-- R37, R38 (and the storing half of R36): a write in bounds has status 0, stores its one or two bytes, high byte
first, and changes no other byte; a write out of bounds has status 1 and stores not one byte. -/
def Obligations.PortWrites : Prop :=
  ∀ (m : Memory) (off : Nat) (b : Byte) (v : Word),
    (off < m.len → (m.writeU8 off b).1 = 0 ∧ (m.writeU8 off b).2.len = m.len ∧
      (m.writeU8 off b).2.byteAt off = b ∧
      ∀ a, a ≠ off → (m.writeU8 off b).2.byteAt a = m.byteAt a) ∧
    (m.len ≤ off → m.writeU8 off b = (1, m)) ∧
    (off + 2 ≤ m.len → (m.writeU16 off v).1 = 0 ∧ (m.writeU16 off v).2.len = m.len ∧
      ((m.writeU16 off v).2.byteAt off).toNat = v.toNat / 256 ∧
      ((m.writeU16 off v).2.byteAt (off + 1)).toNat = v.toNat % 256 ∧
      ∀ a, a ≠ off → a ≠ off + 1 → (m.writeU16 off v).2.byteAt a = m.byteAt a) ∧
    (m.len < off + 2 → m.writeU16 off v = (1, m))

/-- R44: what a write of status 0 stored is what a read at the same offset returns; and a word that overlaps it by one
byte shares that byte. -/
def Obligations.PortRoundTrip : Prop :=
  (∀ (m n : Memory) (off : Nat) (v : Word), m.writeU16 off v = (0, n) →
    n.readU16 off = .ok v ∧
    (off + 3 ≤ m.len → n.readU16 (off + 1) = .ok (joinBytes (lo8 v) (m.byteAt (off + 2)))) ∧
    (∀ p, p + 1 = off → n.readU16 p = .ok (joinBytes (m.byteAt p) (hi8 v)))) ∧
  (∀ (m n : Memory) (off : Nat) (b : Byte), m.writeU8 off b = (0, n) → n.readU8 off = .ok b)

/-- 20_memory.md section 3: a mixed-width access sees the big-endian order both ways. -/
def Obligations.MixedWidthAccessIsBigEndian : Prop :=
  (∀ (m n : Memory) (off : Nat) (v : Word), m.writeU16 off v = (0, n) →
    n.readU8 off = .ok (hi8 v) ∧ n.readU8 (off + 1) = .ok (lo8 v)) ∧
  (∀ (m n k : Memory) (off : Nat) (p q : Byte), m.writeU8 off p = (0, n) → n.writeU8 (off + 1) q = (0, k) →
    k.readU16 off = .ok (joinBytes p q))

/-- 20_memory.md section 2 (D14, D16): `try_new(L)` builds a block of `L` zero bytes exactly when `L` is even and at most
65536, and reports an error for every other length. -/
def Obligations.ConstructionAcceptsEvenLengths : Prop :=
  ∀ len : Nat,
    (len % 2 = 0 ∧ len ≤ 65536 → ∃ m, Memory.tryNew len = .ok m ∧ m.len = len ∧ ∀ a, m.byteAt a = 0) ∧
    (¬ (len % 2 = 0 ∧ len ≤ 65536) → ∃ e, Memory.tryNew len = .error e)

/-- 20_memory.md section 7: the CPU's reads and writes of main memory. In bounds they read or write the bytes named;
out of bounds they are `MemOutOfBounds(addr)`; the address never wraps, so a 2-byte access at `0xFFFF` always fails. -/
def Obligations.CpuMemoryPrimitives : Prop :=
  ∀ (s : State) (addr v : Word) (b : Byte),
    (addr.toNat < s.mem.len → s.memRead8 addr = .ok (s.mem.byteAt addr.toNat) ∧
      ∃ t, s.memWrite8 addr b = .ok t ∧ t.regs = s.regs ∧ t.fault = s.fault ∧ t.mem.len = s.mem.len ∧
        t.mem.byteAt addr.toNat = b ∧ ∀ a, a ≠ addr.toNat → t.mem.byteAt a = s.mem.byteAt a) ∧
    (s.mem.len ≤ addr.toNat → s.memRead8 addr = .error (.memOutOfBounds addr) ∧
      s.memWrite8 addr b = .error (.memOutOfBounds addr)) ∧
    (addr.toNat + 2 ≤ s.mem.len →
      s.memRead16 addr = .ok (joinBytes (s.mem.byteAt addr.toNat) (s.mem.byteAt (addr.toNat + 1))) ∧
      ∃ t, s.memWrite16 addr v = .ok t ∧ t.regs = s.regs ∧ t.fault = s.fault ∧ t.mem.len = s.mem.len ∧
        t.mem.byteAt addr.toNat = hi8 v ∧ t.mem.byteAt (addr.toNat + 1) = lo8 v ∧
        ∀ a, a ≠ addr.toNat → a ≠ addr.toNat + 1 → t.mem.byteAt a = s.mem.byteAt a) ∧
    (s.mem.len < addr.toNat + 2 → s.memRead16 addr = .error (.memOutOfBounds addr) ∧
      s.memWrite16 addr v = .error (.memOutOfBounds addr)) ∧
    (s.mem.wf → s.memRead16 0xFFFF = .error (.memOutOfBounds 0xFFFF) ∧
      s.memWrite16 0xFFFF v = .error (.memOutOfBounds 0xFFFF))

/-! ## Reset and the host -/

/-- 10_state.md section 6 and 70_reset_and_hazards.md section 1 (D6, D9): reset leaves all ten registers and all twenty
bytes of the register file zero, the memory the host loaded, and no fault. `State.reset` is the reset of a zero-filled
block; its length 65536 is the model's choice (log 2). -/
def Obligations.ResetLeavesZeroedCore : Prop :=
  (∀ (mem : Memory) (r : Reg), (resetWith mem).readReg r = 0 ∧ (resetWith mem).mem = mem ∧
    (resetWith mem).fault = none) ∧
  (∀ (mem : Memory) (k : Nat), (resetWith mem).regs.byte k = 0) ∧
  Memory.tryNew 65536 = .ok State.reset.mem ∧ State.reset = resetWith State.reset.mem

/-- 70_reset_and_hazards.md section 1: the first step after reset fetches its opcode at offset 0; with `MEM_LEN = 0` it
raises `MemOutOfBounds(0)` (the raise as a next state: log 5). -/
def Obligations.EntryPointIsOffsetZero : Prop :=
  ∀ (m : OpcodeMap) (mem : Memory),
    (mem.len = 0 → stepWith m (resetWith mem) = (resetWith mem).raisesAt 0 (.memOutOfBounds 0)) ∧
    (∀ i rest, decodeWith m (mem.window 0 5) = .ok (i, rest) →
      stepWith m (resetWith mem) = exec i ((resetWith mem).atPc i.length))

/-- 70_reset_and_hazards.md section 3: a memory range inside the block is read byte by byte in order, a range that leaves
it is not read, and the whole range is the block's iteration; the dump lists IP, ACC, R1 .. R8 with their values. -/
def Obligations.HostInspection : Prop :=
  ∀ (s : State),
    (∀ off len, off + len ≤ s.mem.len → ∃ bytes, hostReadMemory s off len = some bytes ∧ bytes.length = len ∧
      ∀ k, k < len → bytes[k]? = some (s.mem.byteAt (off + k))) ∧
    (∀ off len, s.mem.len < off + len → hostReadMemory s off len = none) ∧
    hostReadMemory s 0 s.mem.len = some s.mem.bytes ∧
    (hostRegisterDump s).map (fun e => e.1.index) = [0, 1, 2, 3, 4, 5, 6, 7, 8, 9] ∧
    ∀ e ∈ hostRegisterDump s, e.2 = s.readReg e.1

/-! ## Encoding -/

/-- 30_encoding.md section 2 (D1): under the decided values the six bytes `0x10 .. 0x15` select the six instructions and
every other byte is unknown. -/
def Obligations.DecidedOpcodeBytes : Prop :=
  Config.opcodes.lookup 0x10 = some .movLitReg ∧ Config.opcodes.lookup 0x11 = some .movRegReg ∧
  Config.opcodes.lookup 0x12 = some .movRegMem ∧ Config.opcodes.lookup 0x13 = some .movMemReg ∧
  Config.opcodes.lookup 0x14 = some .addRegReg ∧ Config.opcodes.lookup 0x15 = some .jmpNotEq ∧
  ∀ op : Byte, Config.opcodes.lookup op = none ↔ (op.toNat < 0x10 ∨ 0x15 < op.toNat)

/-- 30_encoding.md section 1 (D1, D2): words written out from the formats, one of each family, decode to the instruction
they stand for. -/
def Obligations.DecodeSampleWords : Prop :=
  decode [0x10, 0x12, 0x34, 0x02] = .ok (.movLitReg 0x1234 .r1, []) ∧
  decode [0x11, 0x02, 0x03] = .ok (.movRegReg .r1 .r2, []) ∧
  decode [0x14, 0x02, 0x03] = .ok (.addRegReg .r1 .r2, []) ∧
  decode [0x15, 0x00, 0x03, 0x00, 0x40] = .ok (.jmpNotEq 0x0003 0x0040, [])

/-- 30_encoding.md section 1: for every admissible opcode map, every instruction with every operand, and whatever bytes
follow it, decoding its encoding gives it back and leaves those bytes. -/
def Obligations.DecodeOfEncode : Prop :=
  ∀ (m : OpcodeMap) (i : Instr) (rest : List Byte), m.admissible = true → i.wellFormed = true →
    decodeWith m (encodeWith m i ++ rest) = .ok (i, rest)

/-- 30_encoding.md section 3: what decodes is the encoding of what it decodes to, so every bit of the opcode byte and of
every operand is significant and no two encodings have one meaning. -/
def Obligations.EncodeOfDecode : Prop :=
  ∀ (m : OpcodeMap) (bytes rest : List Byte) (i : Instr),
    decodeWith m bytes = .ok (i, rest) → bytes = encodeWith m i ++ rest

/-- 30_encoding.md section 3: five bytes are an instruction, or begin with a byte outside the table, or hold a register
byte above 9; there is no other encoding. -/
def Obligations.EveryEncodingIsDecodedOrIllegal : Prop :=
  ∀ (m : OpcodeMap) (bytes : List Byte), 5 ≤ bytes.length →
    (∃ i rest, decodeWith m bytes = .ok (i, rest)) ∨
    (∃ op, bytes.head? = some op ∧ m.lookup op = none ∧ decodeWith m bytes = .error (.unknownOpcode op)) ∨
    (∃ b ∈ bytes, 9 < b.toNat ∧ decodeWith m bytes = .error (.unknownRegister b))

/-! ## The step -/

/-- 40_step_cycle.md sections 1 and 3: when the bytes at IP decode to an instruction that does not reach past `0xFFFF`,
the step is that instruction's effect at the state with IP moved past it; for any map, and for `step`. -/
def Obligations.StepRunsDecodedInstruction : Prop :=
  (∀ (m : OpcodeMap) (s : State) (i : Instr) (rest : List Byte), s.fault = none →
    decodeWith m s.codeAtPc = .ok (i, rest) → s.pc.toNat + i.length ≤ 0xFFFF →
    stepWith m s = exec i (s.atPc (s.pc.toNat + i.length))) ∧
  (∀ (s : State) (i : Instr) (rest : List Byte), s.fault = none →
    decode s.codeAtPc = .ok (i, rest) → s.pc.toNat + i.length ≤ 0xFFFF →
    step s = exec i (s.atPc (s.pc.toNat + i.length)))

/-- 60_exceptions.md sections 4 and 5 (D6): a core whose latch is set takes no step; the stop is named `halted` in the
model (log 5). -/
def Obligations.HaltedCoreTakesNoStep : Prop :=
  ∀ (m : OpcodeMap) (s : State) (f : FaultRecord), s.fault = some f → stepWith m s = .fault (.halted f)

/-- 40_step_cycle.md section 1: a core that is not halted always takes a step, which completes or raises a fault; no step
is refused (the raise as a next state: log 5). -/
def Obligations.RunningCoreAlwaysSteps : Prop :=
  ∀ (m : OpcodeMap) (s : State), s.fault = none → ∃ t, stepWith m s = .next t

/-- 40_step_cycle.md sections 2 and 3 (D4, D6; log 5): the faults of the opcode fetch and lookup, at `A`, `A` and
`A + 1`. -/
def Obligations.OpcodeFetchFaults : Prop :=
  ∀ (m : OpcodeMap) (s : State), s.fault = none →
    (s.mem.len ≤ s.pc.toNat → stepWith m s = s.raisesAt s.pc.toNat (.memOutOfBounds s.pc)) ∧
    (s.pc.toNat < s.mem.len → s.pc.toNat = 0xFFFF → stepWith m s = s.raisesAt s.pc.toNat (.ipOverflow s.pc)) ∧
    (s.pc.toNat < s.mem.len → s.pc.toNat < 0xFFFF → m.lookup (s.codeByte 0) = none →
      stepWith m s = s.raisesAt (s.pc.toNat + 1) (.unknownOpcode (s.codeByte 0)))

/-! ## The whole step of each instruction, its faults in order -/

/-- 41_move.md section 1, MOV_LIT_REG (D4, D6; log 5). -/
def Obligations.MovLitRegWholeStep : Prop :=
  ∀ (m : OpcodeMap) (s : State), m.admissible = true → s.mem.wf → s.fault = none →
    s.pc.toNat < s.mem.len → s.pc.toNat < 0xFFFF → s.codeByte 0 = m.movLitReg →
    stepWith m s =
      if s.mem.len < s.pc.toNat + 3 then
        s.raisesAt (s.pc.toNat + 1) (.memOutOfBounds (BitVec.ofNat 16 (s.pc.toNat + 1)))
      else if s.pc.toNat + 1 = 0xFFFE then s.raisesAt (s.pc.toNat + 1) (.ipOverflow 0xFFFE)
      else if s.mem.len ≤ s.pc.toNat + 3 then
        s.raisesAt (s.pc.toNat + 3) (.memOutOfBounds (BitVec.ofNat 16 (s.pc.toNat + 3)))
      else if s.pc.toNat + 3 = 0xFFFF then s.raisesAt (s.pc.toNat + 3) (.ipOverflow 0xFFFF)
      else match Reg.ofByte (s.codeByte 3) with
        | none => s.raisesAt (s.pc.toNat + 4) (.unknownRegister (s.codeByte 3))
        | some dst => .next ((s.atPc (s.pc.toNat + 4)).writeReg dst (s.codeWord 1))

/-- 41_move.md section 2, MOV_REG_REG (D2, D3, D4, D6; log 5, log 7): the source is read with IP at `A + 3`. -/
def Obligations.MovRegRegWholeStep : Prop :=
  ∀ (m : OpcodeMap) (s : State), m.admissible = true → s.mem.wf → s.fault = none →
    s.pc.toNat < s.mem.len → s.pc.toNat < 0xFFFF → s.codeByte 0 = m.movRegReg →
    stepWith m s =
      if s.mem.len ≤ s.pc.toNat + 1 then
        s.raisesAt (s.pc.toNat + 1) (.memOutOfBounds (BitVec.ofNat 16 (s.pc.toNat + 1)))
      else if s.pc.toNat + 1 = 0xFFFF then s.raisesAt (s.pc.toNat + 1) (.ipOverflow 0xFFFF)
      else match Reg.ofByte (s.codeByte 1) with
        | none => s.raisesAt (s.pc.toNat + 2) (.unknownRegister (s.codeByte 1))
        | some src =>
          if s.mem.len ≤ s.pc.toNat + 2 then
            s.raisesAt (s.pc.toNat + 2) (.memOutOfBounds (BitVec.ofNat 16 (s.pc.toNat + 2)))
          else if s.pc.toNat + 2 = 0xFFFF then s.raisesAt (s.pc.toNat + 2) (.ipOverflow 0xFFFF)
          else match Reg.ofByte (s.codeByte 2) with
            | none => s.raisesAt (s.pc.toNat + 3) (.unknownRegister (s.codeByte 2))
            | some dst =>
              .next ((s.atPc (s.pc.toNat + 3)).writeReg dst ((s.atPc (s.pc.toNat + 3)).readReg src))

/-- 41_move.md section 3, MOV_REG_MEM (D3, D4, D6; log 5, log 7): the value stored is the source read with IP at
`A + 4`; a store out of bounds stores nothing. -/
def Obligations.MovRegMemWholeStep : Prop :=
  ∀ (m : OpcodeMap) (s : State), m.admissible = true → s.mem.wf → s.fault = none →
    s.pc.toNat < s.mem.len → s.pc.toNat < 0xFFFF → s.codeByte 0 = m.movRegMem →
    stepWith m s =
      if s.mem.len ≤ s.pc.toNat + 1 then
        s.raisesAt (s.pc.toNat + 1) (.memOutOfBounds (BitVec.ofNat 16 (s.pc.toNat + 1)))
      else if s.pc.toNat + 1 = 0xFFFF then s.raisesAt (s.pc.toNat + 1) (.ipOverflow 0xFFFF)
      else match Reg.ofByte (s.codeByte 1) with
        | none => s.raisesAt (s.pc.toNat + 2) (.unknownRegister (s.codeByte 1))
        | some src =>
          if s.mem.len < s.pc.toNat + 4 then
            s.raisesAt (s.pc.toNat + 2) (.memOutOfBounds (BitVec.ofNat 16 (s.pc.toNat + 2)))
          else if s.pc.toNat + 2 = 0xFFFE then s.raisesAt (s.pc.toNat + 2) (.ipOverflow 0xFFFE)
          else if s.mem.len < (s.codeWord 2).toNat + 2 then
            s.raisesAt (s.pc.toNat + 4) (.memOutOfBounds (s.codeWord 2))
          else
            .next ((s.atPc (s.pc.toNat + 4)).withMem
              ((s.mem.storeByte (s.codeWord 2).toNat (hi8 ((s.atPc (s.pc.toNat + 4)).readReg src))).storeByte
                ((s.codeWord 2).toNat + 1) (lo8 ((s.atPc (s.pc.toNat + 4)).readReg src))))

/-- 41_move.md section 4, MOV_MEM_REG (D3, D4, D6; log 5): the register byte is judged before the data read, C9. -/
def Obligations.MovMemRegWholeStep : Prop :=
  ∀ (m : OpcodeMap) (s : State), m.admissible = true → s.mem.wf → s.fault = none →
    s.pc.toNat < s.mem.len → s.pc.toNat < 0xFFFF → s.codeByte 0 = m.movMemReg →
    stepWith m s =
      if s.mem.len < s.pc.toNat + 3 then
        s.raisesAt (s.pc.toNat + 1) (.memOutOfBounds (BitVec.ofNat 16 (s.pc.toNat + 1)))
      else if s.pc.toNat + 1 = 0xFFFE then s.raisesAt (s.pc.toNat + 1) (.ipOverflow 0xFFFE)
      else if s.mem.len ≤ s.pc.toNat + 3 then
        s.raisesAt (s.pc.toNat + 3) (.memOutOfBounds (BitVec.ofNat 16 (s.pc.toNat + 3)))
      else if s.pc.toNat + 3 = 0xFFFF then s.raisesAt (s.pc.toNat + 3) (.ipOverflow 0xFFFF)
      else match Reg.ofByte (s.codeByte 3) with
        | none => s.raisesAt (s.pc.toNat + 4) (.unknownRegister (s.codeByte 3))
        | some dst =>
          if s.mem.len < (s.codeWord 1).toNat + 2 then
            s.raisesAt (s.pc.toNat + 4) (.memOutOfBounds (s.codeWord 1))
          else
            .next ((s.atPc (s.pc.toNat + 4)).writeReg dst
              (joinBytes (s.mem.byteAt (s.codeWord 1).toNat) (s.mem.byteAt ((s.codeWord 1).toNat + 1))))

/-- 42_add.md section 1, ADD_REG_REG (D3, D4, D6; log 5, log 7): both sources are read with IP at `A + 3` and before ACC
is written; the sum is taken modulo 65536. -/
def Obligations.AddRegRegWholeStep : Prop :=
  ∀ (m : OpcodeMap) (s : State), m.admissible = true → s.mem.wf → s.fault = none →
    s.pc.toNat < s.mem.len → s.pc.toNat < 0xFFFF → s.codeByte 0 = m.addRegReg →
    stepWith m s =
      if s.mem.len ≤ s.pc.toNat + 1 then
        s.raisesAt (s.pc.toNat + 1) (.memOutOfBounds (BitVec.ofNat 16 (s.pc.toNat + 1)))
      else if s.pc.toNat + 1 = 0xFFFF then s.raisesAt (s.pc.toNat + 1) (.ipOverflow 0xFFFF)
      else match Reg.ofByte (s.codeByte 1) with
        | none => s.raisesAt (s.pc.toNat + 2) (.unknownRegister (s.codeByte 1))
        | some a =>
          if s.mem.len ≤ s.pc.toNat + 2 then
            s.raisesAt (s.pc.toNat + 2) (.memOutOfBounds (BitVec.ofNat 16 (s.pc.toNat + 2)))
          else if s.pc.toNat + 2 = 0xFFFF then s.raisesAt (s.pc.toNat + 2) (.ipOverflow 0xFFFF)
          else match Reg.ofByte (s.codeByte 2) with
            | none => s.raisesAt (s.pc.toNat + 3) (.unknownRegister (s.codeByte 2))
            | some b =>
              .next ((s.atPc (s.pc.toNat + 3)).writeReg .acc
                (BitVec.ofNat 16 ((((s.atPc (s.pc.toNat + 3)).readReg a).toNat +
                  ((s.atPc (s.pc.toNat + 3)).readReg b).toNat) % 65536)))

/-- 43_jump.md section 1, JMP_NOT_EQ (D4, D6; log 5): both operands are fetched whether or not the jump is taken, and
the target is not tested. -/
def Obligations.JmpNotEqWholeStep : Prop :=
  ∀ (m : OpcodeMap) (s : State), m.admissible = true → s.mem.wf → s.fault = none →
    s.pc.toNat < s.mem.len → s.pc.toNat < 0xFFFF → s.codeByte 0 = m.jmpNotEq →
    stepWith m s =
      if s.mem.len < s.pc.toNat + 3 then
        s.raisesAt (s.pc.toNat + 1) (.memOutOfBounds (BitVec.ofNat 16 (s.pc.toNat + 1)))
      else if s.pc.toNat + 1 = 0xFFFE then s.raisesAt (s.pc.toNat + 1) (.ipOverflow 0xFFFE)
      else if s.mem.len < s.pc.toNat + 5 then
        s.raisesAt (s.pc.toNat + 3) (.memOutOfBounds (BitVec.ofNat 16 (s.pc.toNat + 3)))
      else if s.pc.toNat + 3 = 0xFFFE then s.raisesAt (s.pc.toNat + 3) (.ipOverflow 0xFFFE)
      else if s.codeWord 1 = s.readReg .acc then .next (s.atPc (s.pc.toNat + 5))
      else .next (s.setPc (s.codeWord 3))

/-! ## The effect of each instruction, its result and its frame -/

/-- 41_move.md section 1: MOV_LIT_REG completes at every state, for each of the ten destinations; only the destination
changes. -/
def Obligations.MovLitRegCompletes : Prop :=
  ∀ (lit : Word) (dst : Reg) (s : State), ∃ t, exec (.movLitReg lit dst) s = .next t ∧
    t.readReg dst = lit ∧ SameRegsBut [dst] s t ∧ SameMemory s t ∧ t.fault = s.fault

/-- 41_move.md section 2 (D2, log 7): MOV_REG_REG completes at every state; the second register receives the first, and
only it changes. -/
def Obligations.MovRegRegCompletes : Prop :=
  ∀ (src dst : Reg) (s : State), ∃ t, exec (.movRegReg src dst) s = .next t ∧
    t.readReg dst = s.readReg src ∧ SameRegsBut [dst] s t ∧ SameMemory s t ∧ t.fault = s.fault

/-- 41_move.md section 3: MOV_REG_MEM completes whenever the two bytes at the effective address are inside memory; they
become the source, high byte first, and no other byte and no register changes. -/
def Obligations.MovRegMemCompletes : Prop :=
  ∀ (src : Reg) (addr : Word) (s : State), (effectiveAddress addr).toNat + 2 ≤ s.mem.len →
    ∃ t, exec (.movRegMem src addr) s = .next t ∧
      t.mem.byteAt (effectiveAddress addr).toNat = hi8 (s.readReg src) ∧
      t.mem.byteAt ((effectiveAddress addr).toNat + 1) = lo8 (s.readReg src) ∧
      t.mem.len = s.mem.len ∧
      (∀ a, a ≠ (effectiveAddress addr).toNat → a ≠ (effectiveAddress addr).toNat + 1 →
        t.mem.byteAt a = s.mem.byteAt a) ∧
      SameRegsBut [] s t ∧ t.fault = s.fault

/-- 41_move.md section 4: MOV_MEM_REG completes whenever the two bytes at the effective address are inside memory; the
destination receives the big-endian word, and nothing else changes. -/
def Obligations.MovMemRegCompletes : Prop :=
  ∀ (addr : Word) (dst : Reg) (s : State), (effectiveAddress addr).toNat + 2 ≤ s.mem.len →
    ∃ t, exec (.movMemReg addr dst) s = .next t ∧
      (t.readReg dst).toNat = (s.mem.byteAt (effectiveAddress addr).toNat).toNat * 256 +
        (s.mem.byteAt ((effectiveAddress addr).toNat + 1)).toNat ∧
      SameRegsBut [dst] s t ∧ SameMemory s t ∧ t.fault = s.fault

/-- 42_add.md sections 1 and 2: ADD_REG_REG completes at every state with every pair of operands; ACC receives the sum
modulo 65536, which is also the two's-complement sum, and nothing else changes. -/
def Obligations.AddRegRegCompletes : Prop :=
  ∀ (a b : Reg) (s : State), ∃ t, exec (.addRegReg a b) s = .next t ∧
    (t.readReg .acc).toNat = ((s.readReg a).toNat + (s.readReg b).toNat) % 65536 ∧
    (t.readReg .acc).toInt = ((s.readReg a).toInt + (s.readReg b).toInt).bmod 65536 ∧
    SameRegsBut [.acc] s t ∧ SameMemory s t ∧ t.fault = s.fault

/-- 43_jump.md section 1: JMP_NOT_EQ completes at every state; IP becomes the target when the literal differs from ACC
and is left alone when they are equal, and nothing else changes. -/
def Obligations.JmpNotEqCompletes : Prop :=
  ∀ (lit addr : Word) (s : State), ∃ t, exec (.jmpNotEq lit addr) s = .next t ∧
    (lit ≠ s.readReg .acc → t.pc = addr) ∧ (lit = s.readReg .acc → t.pc = s.pc) ∧
    SameRegsBut [.ip] s t ∧ SameMemory s t ∧ t.fault = s.fault

/-- 41_move.md sections 3 and 4 (D6, log 5): a store or load whose two bytes are not both inside memory raises
`MemOutOfBounds(addr)` and changes only the latch: no byte is stored, not even the first, and no register changes. -/
def Obligations.DataAccessOutOfBoundsRaises : Prop :=
  ∀ (r : Reg) (addr : Word) (s : State), s.mem.len < (effectiveAddress addr).toNat + 2 →
    (∃ t, exec (.movRegMem r addr) s = .next t ∧ t.fault = some (.memOutOfBounds addr) ∧
      SameRegsBut [] s t ∧ SameMemory s t) ∧
    (∃ t, exec (.movMemReg addr r) s = .next t ∧ t.fault = some (.memOutOfBounds addr) ∧
      SameRegsBut [] s t ∧ SameMemory s t)

/-! ## What every step keeps -/

/-- 20_memory.md section 2: from every state whose memory is a canonical block of admissible length, a step leaves a
canonical block of the same length ("never resized"); for any map, and for `step`. -/
def Obligations.StepKeepsMemoryBlock : Prop :=
  (∀ (m : OpcodeMap) (s t : State), s.mem.wf → stepWith m s = .next t → t.mem.wf ∧ t.mem.len = s.mem.len) ∧
  (∀ s t : State, s.mem.wf → step s = .next t → t.mem.wf ∧ t.mem.len = s.mem.len)

/-- 60_exceptions.md section 1 (D4, D6): from every state with a well-formed memory, what a step latches, if anything, is
one of the four faults with its cause condition true. -/
def Obligations.StepKeepsLatchJustified : Prop :=
  ∀ (m : OpcodeMap) (s t : State), s.mem.wf → s.latchJustified m → stepWith m s = .next t → t.latchJustified m

/-- The two invariants hold at reset, for every well-formed memory the host hands over and for `State.reset`. -/
def Obligations.ResetMeetsTheInvariants : Prop :=
  (∀ (m : OpcodeMap) (mem : Memory), mem.wf → (resetWith mem).mem.wf ∧ (resetWith mem).latchJustified m) ∧
  State.reset.mem.wf ∧ State.reset.latchJustified Config.opcodes

/-- 60_exceptions.md section 4 (D4, D6; log 5, log 6): faults are precise. A step that raises changes only IP and the
latch, and leaves IP at `A`, or at most four bytes past it; a fault of the opcode fetch leaves it at `A`. That the opcode
fetch at `A = 0xFFFF` raises `IpOverflow` is the spec's decision D4 (log 6). -/
def Obligations.FaultsArePrecise : Prop :=
  ∀ (m : OpcodeMap) (s t : State) (f : FaultRecord), stepWith m s = .next t → t.fault = some f →
    SameRegsBut [.ip] s t ∧ SameMemory s t ∧ s.fault = none ∧
    s.pc.toNat ≤ t.pc.toNat ∧ t.pc.toNat ≤ s.pc.toNat + 4 ∧
    (s.mem.len ≤ s.pc.toNat → t.pc = s.pc ∧ f = .memOutOfBounds s.pc) ∧
    (s.pc.toNat < s.mem.len → s.pc.toNat = 0xFFFF → t.pc = s.pc ∧ f = .ipOverflow s.pc)

/-- 40_step_cycle.md section 3, the rule on what one step may change: a completed step moves IP past the instruction it
fetched and then makes exactly one change: the named destination (the three moves into a register), ACC (ADD_REG_REG),
IP (JMP_NOT_EQ taken), two adjacent bytes of main memory (MOV_REG_MEM), or nothing more (JMP_NOT_EQ not taken). That the
advance never passes `0xFFFF` in a completed step (`A + length <= 0xFFFF`) is the spec's decision D4 (log 6). -/
def Obligations.CompletedStepMakesOneChange : Prop :=
  ∀ (m : OpcodeMap) (s t : State), stepWith m s = .next t → t.fault = none →
    ∃ i rest, decodeWith m s.codeAtPc = .ok (i, rest) ∧ s.pc.toNat + i.length ≤ 0xFFFF ∧
      match i with
      | .movLitReg _ dst => ∃ v, t = (s.atPc (s.pc.toNat + 4)).writeReg dst v
      | .movRegReg _ dst => ∃ v, t = (s.atPc (s.pc.toNat + 3)).writeReg dst v
      | .movRegMem _ addr => SameRegsBut [] (s.atPc (s.pc.toNat + 4)) t ∧ t.mem.len = s.mem.len ∧
          ∀ a, a ≠ (effectiveAddress addr).toNat → a ≠ (effectiveAddress addr).toNat + 1 →
            t.mem.byteAt a = s.mem.byteAt a
      | .movMemReg _ dst => ∃ v, t = (s.atPc (s.pc.toNat + 4)).writeReg dst v
      | .addRegReg _ _ => ∃ v, t = (s.atPc (s.pc.toNat + 3)).writeReg .acc v
      | .jmpNotEq lit addr =>
          (lit ≠ s.readReg .acc ∧ t = s.setPc addr) ∨
          (lit = s.readReg .acc ∧ t = s.atPc (s.pc.toNat + 5))

/-- 10_state.md section 2: R1 to R8 change only when the instruction names them as its destination. -/
def Obligations.GeneralRegistersChangeOnlyWhenNamed : Prop :=
  ∀ (m : OpcodeMap) (s t : State) (r : Reg), stepWith m s = .next t → r ≠ .ip → r ≠ .acc →
    t.readReg r ≠ s.readReg r →
    ∃ i rest, decodeWith m s.codeAtPc = .ok (i, rest) ∧ registerWritten i = some r ∧ r ∈ registersNamed i

/-- 10_state.md section 2: R1 to R8 are read only when named. Changing such a register, where the decoded instruction
does not name it, changes nothing of the step but that register. -/
def Obligations.UnnamedRegistersAreNotRead : Prop :=
  ∀ (m : OpcodeMap) (s t : State) (i : Instr) (rest : List Byte) (r : Reg) (v : Word),
    decodeWith m s.codeAtPc = .ok (i, rest) → r ∉ registersNamed i → r ≠ .ip → r ≠ .acc →
    stepWith m s = .next t → stepWith m (s.writeReg r v) = .next (t.writeReg r v)

/-- 10_state.md section 3: a completed step of an instruction that does not write IP leaves IP at `A + length`, which
never wraps (D4, log 6); a move into IP leaves there what it moved. -/
def Obligations.IpAfterCompletedStep : Prop :=
  ∀ (m : OpcodeMap) (s t : State) (i : Instr) (rest : List Byte),
    decodeWith m s.codeAtPc = .ok (i, rest) → stepWith m s = .next t → t.fault = none →
    (registerWritten i ≠ some .ip → t.pc.toNat = s.pc.toNat + i.length) ∧
    (∀ lit, i = .movLitReg lit .ip → t.pc = lit) ∧
    (∀ src, i = .movRegReg src .ip → src ≠ .ip → t.pc = s.readReg src) ∧
    (i = .movRegReg .ip .ip → t.pc.toNat = s.pc.toNat + 3) ∧
    (∀ addr, i = .movMemReg addr .ip →
      t.pc = joinBytes (s.mem.byteAt addr.toNat) (s.mem.byteAt (addr.toNat + 1)))

/-- 40_step_cycle.md section 3 (D3, log 7; without a wrap, D4, log 6): an instruction that names IP as a source reads the offset of the next
sequential instruction: `A + 3` for MOV_REG_REG and ADD_REG_REG, `A + 4` for MOV_REG_MEM. -/
def Obligations.IpAsSourceReadsNextInstruction : Prop :=
  ∀ (m : OpcodeMap) (s t : State) (i : Instr) (rest : List Byte),
    decodeWith m s.codeAtPc = .ok (i, rest) → stepWith m s = .next t → t.fault = none →
    (∀ dst, i = .movRegReg .ip dst → (t.readReg dst).toNat = s.pc.toNat + 3) ∧
    (∀ addr, i = .movRegMem .ip addr →
      (t.mem.byteAt addr.toNat).toNat * 256 + (t.mem.byteAt (addr.toNat + 1)).toNat = s.pc.toNat + 4) ∧
    (∀ b, b ≠ .ip → i = .addRegReg .ip b →
      (t.readReg .acc).toNat = (s.pc.toNat + 3 + (s.readReg b).toNat) % 65536)

/-- 20_memory.md section 8: a store is seen by the next instruction fetch. After MOV_REG_MEM has stored, a fetch at the
stored address reads the stored word. -/
def Obligations.StoreIsSeenByNextFetch : Prop :=
  ∀ (src : Reg) (addr : Word) (s t : State), s.fault = none → exec (.movRegMem src addr) s = .next t →
    t.fault = none → addr.toNat + 2 ≤ 0xFFFF →
    (t.setPc addr).fetch16 = .ok (s.readReg src, t.atPc (addr.toNat + 2))

/-- 43_jump.md section 2 (D6, log 5): a jump to an offset outside memory completes, and the next step raises
`MemOutOfBounds(target)` with IP still at the target. -/
def Obligations.JumpTargetIsTestedAtNextFetch : Prop :=
  ∀ (m : OpcodeMap) (lit addr : Word) (s : State), s.fault = none → lit ≠ s.readReg .acc →
    s.mem.len ≤ addr.toNat →
    ∃ t, exec (.jmpNotEq lit addr) s = .next t ∧ t.fault = none ∧
      stepWith m t = .next (t.raise (.memOutOfBounds addr)) ∧ t.pc = addr

/-- 70_reset_and_hazards.md section 5 (h) (D4): an instruction whose last byte is at `0xFFFF` cannot complete, even one
that would jump away: its step raises `IpOverflow`. -/
def Obligations.InstructionCannotEndAtTopOfMemory : Prop :=
  ∀ (m : OpcodeMap) (s : State) (i : Instr) (rest : List Byte), s.fault = none →
    decodeWith m s.codeAtPc = .ok (i, rest) → s.pc.toNat + i.length = 65536 →
    ∃ t ip, stepWith m s = .next t ∧ t.fault = some (.ipOverflow ip) ∧ t.pc = ip ∧ 0xFFFE ≤ ip.toNat

/-! ## Runs -/

/-- 70_reset_and_hazards.md section 4 (D12): a run stops at its first fault, so asking for more steps changes nothing. -/
def Obligations.RunStopsAtFirstFault : Prop :=
  ∀ (m : OpcodeMap) (s t : State) (n extra k : Nat) (f : FaultRecord),
    runFrom m 0 n s = .faulted k f t → runFrom m 0 (n + extra) s = .faulted k f t

/-- 70_reset_and_hazards.md section 4 (D4, D6, D12): every run from reset over a well-formed memory ends completed, with
the latch clear, or faulted at one of its steps, with that step's fault latched for a true cause; either way memory is a
well-formed block of the length it had. No run is refused. A faulted run is not a good one (`RunEnd.good`); this says
only that its fault is justified, and for `IpOverflow` the true cause is the one of decision D4 (log 6). -/
def Obligations.EveryRunFromResetCompletesOrFaultsJustified : Prop :=
  ∀ (m : OpcodeMap) (mem : Memory) (n : Nat), mem.wf →
    match runFrom m 0 n (resetWith mem) with
    | .completed s => s.fault = none ∧ s.mem.wf ∧ s.mem.len = mem.len
    | .faulted k f s => 1 ≤ k ∧ k ≤ n ∧ s.fault = some f ∧ s.latchJustified m ∧ s.mem.wf ∧ s.mem.len = mem.len
    | .refused _ => False
end

