-- ==== Sys2Proof/Laws/State.lean ====
section
/-! SUPPORT. One lemma per field per update of the state and of its parts. -/

namespace Sys2Proof.Machine

/-! ## The register file -/

@[simp] theorem RegFile.get_set_same (x : RegFile) (r : Reg) (v : Word) : (x.set r v).get r = v := by
  cases r <;> rfl

@[simp] theorem RegFile.get_set_ne (x : RegFile) {r q : Reg} (h : q ≠ r) (v : Word) :
    (x.set r v).get q = x.get q := by
  cases r <;> cases q <;> first | rfl | exact absurd rfl h

theorem RegFile.ext_get {x y : RegFile} (h : ∀ r, x.get r = y.get r) : x = y := by
  cases x; cases y
  have := h .ip; have := h .acc; have := h .r1; have := h .r2; have := h .r3
  have := h .r4; have := h .r5; have := h .r6; have := h .r7; have := h .r8
  simp_all [RegFile.get]

@[simp] theorem RegFile.set_set (x : RegFile) (r : Reg) (v w : Word) : (x.set r v).set r w = x.set r w := by
  cases r <;> rfl

theorem RegFile.set_comm (x : RegFile) {r q : Reg} (h : q ≠ r) (v w : Word) :
    (x.set r v).set q w = (x.set q w).set r v := by
  cases r <;> cases q <;> first | rfl | exact absurd rfl h

@[simp] theorem RegFile.set_get (x : RegFile) (r : Reg) : x.set r (x.get r) = x := by
  cases r <;> rfl

@[simp] theorem RegFile.get_zero (r : Reg) : RegFile.zero.get r = 0 := by
  cases r <;> rfl

/-! ## Registers of the core -/

@[simp] theorem State.readReg_writeReg_same (s : State) (r : Reg) (v : Word) : (s.writeReg r v).readReg r = v :=
  RegFile.get_set_same s.regs r v

@[simp] theorem State.readReg_writeReg_ne (s : State) {r q : Reg} (h : q ≠ r) (v : Word) :
    (s.writeReg r v).readReg q = s.readReg q :=
  RegFile.get_set_ne s.regs h v

@[simp] theorem State.writeReg_mem (s : State) (r : Reg) (v : Word) : (s.writeReg r v).mem = s.mem := rfl
@[simp] theorem State.writeReg_fault (s : State) (r : Reg) (v : Word) : (s.writeReg r v).fault = s.fault := rfl
@[simp] theorem State.writeReg_regs (s : State) (r : Reg) (v : Word) : (s.writeReg r v).regs = s.regs.set r v := rfl

@[simp] theorem State.writeReg_writeReg (s : State) (r : Reg) (v w : Word) :
    (s.writeReg r v).writeReg r w = s.writeReg r w := by
  simp [State.writeReg]

theorem State.writeReg_comm (s : State) {r q : Reg} (h : q ≠ r) (v w : Word) :
    (s.writeReg r v).writeReg q w = (s.writeReg q w).writeReg r v := by
  simp [State.writeReg, RegFile.set_comm s.regs h]

/-! ## IP -/

@[simp] theorem State.setPc_pc (s : State) (v : Word) : (s.setPc v).pc = v := rfl
@[simp] theorem State.setPc_mem (s : State) (v : Word) : (s.setPc v).mem = s.mem := rfl
@[simp] theorem State.setPc_fault (s : State) (v : Word) : (s.setPc v).fault = s.fault := rfl
@[simp] theorem State.setPc_setPc (s : State) (v w : Word) : (s.setPc v).setPc w = s.setPc w := rfl
@[simp] theorem State.setPc_readReg_ip (s : State) (v : Word) : (s.setPc v).readReg .ip = v := rfl

@[simp] theorem State.setPc_readReg_ne (s : State) {q : Reg} (h : q ≠ .ip) (v : Word) :
    (s.setPc v).readReg q = s.readReg q :=
  State.readReg_writeReg_ne s h v

@[simp] theorem State.writeReg_pc_ne (s : State) {r : Reg} (h : r ≠ .ip) (v : Word) :
    (s.writeReg r v).pc = s.pc :=
  State.readReg_writeReg_ne s h.symm v

@[simp] theorem State.atPc_mem (s : State) (n : Nat) : (s.atPc n).mem = s.mem := rfl
@[simp] theorem State.atPc_fault (s : State) (n : Nat) : (s.atPc n).fault = s.fault := rfl
@[simp] theorem State.atPc_atPc (s : State) (n k : Nat) : (s.atPc n).atPc k = s.atPc k := rfl

theorem State.atPc_pc (s : State) (n : Nat) : (s.atPc n).pc = BitVec.ofNat 16 n := rfl

@[simp] theorem State.atPc_pc_toNat (s : State) {n : Nat} (h : n ≤ 0xFFFF) : (s.atPc n).pc.toNat = n := by
  rw [State.atPc_pc, BitVec.toNat_ofNat]; omega

@[simp] theorem State.atPc_self (s : State) : s.atPc s.pc.toNat = s := by
  simp [State.atPc, State.setPc, State.pc, State.readReg, State.writeReg]

@[simp] theorem State.atPc_readReg_ne (s : State) {q : Reg} (h : q ≠ .ip) (n : Nat) :
    (s.atPc n).readReg q = s.readReg q :=
  State.setPc_readReg_ne s h _

/-! ## Main memory and the latch -/

@[simp] theorem State.withMem_mem (s : State) (m : Memory) : (s.withMem m).mem = m := rfl
@[simp] theorem State.withMem_regs (s : State) (m : Memory) : (s.withMem m).regs = s.regs := rfl
@[simp] theorem State.withMem_fault (s : State) (m : Memory) : (s.withMem m).fault = s.fault := rfl
@[simp] theorem State.withMem_readReg (s : State) (m : Memory) (r : Reg) :
    (s.withMem m).readReg r = s.readReg r := rfl
@[simp] theorem State.withMem_pc (s : State) (m : Memory) : (s.withMem m).pc = s.pc := rfl

@[simp] theorem State.raise_fault (s : State) (f : FaultRecord) : (s.raise f).fault = some f := rfl
@[simp] theorem State.raise_mem (s : State) (f : FaultRecord) : (s.raise f).mem = s.mem := rfl
@[simp] theorem State.raise_regs (s : State) (f : FaultRecord) : (s.raise f).regs = s.regs := rfl
@[simp] theorem State.raise_readReg (s : State) (f : FaultRecord) (r : Reg) :
    (s.raise f).readReg r = s.readReg r := rfl
@[simp] theorem State.raise_pc (s : State) (f : FaultRecord) : (s.raise f).pc = s.pc := rfl

/-! ## Reset -/

@[simp] theorem State.reset_readReg (r : Reg) : State.reset.readReg r = 0 := RegFile.get_zero r
@[simp] theorem State.reset_fault : State.reset.fault = none := rfl
@[simp] theorem State.reset_cells : State.reset.mem.cells = [] := rfl

/-- `State.reset` is the reset of R120 with a fresh block of `Config.memLen` bytes. -/
theorem State.reset_eq_resetWith :
    State.reset = resetWith { len := Config.memLen, cells := [] } := rfl

end Sys2Proof.Machine
end

