-- ==== Sys2Proof/Laws/Memory.lean ====
section
/-! SUPPORT. The laws of a Memory Block: what a byte reads as after a store, and that every operation keeps the
canonical form. The read-after-store laws need no well-formedness. -/

namespace Sys2Proof.Machine

/-! ## Lists of cells -/

theorem cellByte_eraseCell_same (a : Nat) (l : List Host.Cell) : cellByte a (eraseCell a l) = unlistedByte := by
  induction l with
  | nil => rfl
  | cons c l ih =>
    by_cases h : c.1 = a
    · simpa [eraseCell, h] using ih
    · simpa [eraseCell, h, cellByte] using ih

theorem cellByte_eraseCell_ne {a q : Nat} (h : q ≠ a) (l : List Host.Cell) :
    cellByte q (eraseCell a l) = cellByte q l := by
  induction l with
  | nil => rfl
  | cons c l ih =>
    by_cases hc : c.1 = a
    · have : a ≠ q := fun e => h e.symm
      simpa [eraseCell, hc, cellByte, this] using ih
    · have step : eraseCell a (c :: l) = c :: eraseCell a l := by simp [eraseCell, hc]
      rw [step]; simp only [cellByte, ih]

theorem cellByte_insertCell_ne {a q : Nat} (h : q ≠ a) (v : Byte) (l : List Host.Cell) :
    cellByte q (insertCell a v l) = cellByte q l := by
  have h' : a ≠ q := fun e => h e.symm
  induction l with
  | nil => simp [insertCell, cellByte, h']
  | cons c l ih =>
    by_cases hc : a < c.1 <;> simp [insertCell, hc, cellByte, h', ih]

theorem cellByte_insertCell_same {a : Nat} (v : Byte) (l : List Host.Cell) (h : ∀ c ∈ l, c.1 ≠ a) :
    cellByte a (insertCell a v l) = v := by
  induction l with
  | nil => simp [insertCell, cellByte]
  | cons c l ih =>
    have hc : c.1 ≠ a := h c (by simp)
    have hl : ∀ d ∈ l, d.1 ≠ a := fun d hd => h d (by simp [hd])
    by_cases hlt : a < c.1 <;> simp [insertCell, hlt, cellByte, hc, ih hl]

theorem not_mem_eraseCell {a : Nat} {l : List Host.Cell} {c : Host.Cell} (h : c ∈ eraseCell a l) : c.1 ≠ a := by
  simpa using (List.mem_filter.mp h).2

theorem mem_insertCell {a : Nat} {v : Byte} {l : List Host.Cell} {c : Host.Cell} (h : c ∈ insertCell a v l) :
    c = (a, v) ∨ c ∈ l := by
  induction l with
  | nil => simpa [insertCell] using h
  | cons d l ih =>
    by_cases hlt : a < d.1
    · simpa [insertCell, hlt] using h
    · rw [insertCell, if_neg hlt] at h
      rcases List.mem_cons.mp h with rfl | h
      · simp
      · rcases ih h with h | h <;> simp [h]

/-- What a byte reads as after a store at the same offset. -/
theorem cellByte_storeCell_same (a : Nat) (v : Byte) (l : List Host.Cell) : cellByte a (storeCell a v l) = v := by
  by_cases hv : v = unlistedByte
  · rw [storeCell, if_pos hv, cellByte_eraseCell_same, hv]
  · rw [storeCell, if_neg hv]
    exact cellByte_insertCell_same v _ fun c hc => not_mem_eraseCell hc

/-- What a byte reads as after a store at another offset. -/
theorem cellByte_storeCell_ne {a q : Nat} (h : q ≠ a) (v : Byte) (l : List Host.Cell) :
    cellByte q (storeCell a v l) = cellByte q l := by
  by_cases hv : v = unlistedByte
  · rw [storeCell, if_pos hv, cellByte_eraseCell_ne h]
  · rw [storeCell, if_neg hv, cellByte_insertCell_ne h, cellByte_eraseCell_ne h]

theorem insertCell_rising {a : Nat} {v : Byte} {l : List Host.Cell}
    (hl : l.Pairwise (fun c d => c.1 < d.1)) (ha : ∀ c ∈ l, c.1 ≠ a) :
    (insertCell a v l).Pairwise (fun c d => c.1 < d.1) := by
  induction l with
  | nil => simp [insertCell]
  | cons c l ih =>
    obtain ⟨hc, hl'⟩ := List.pairwise_cons.mp hl
    by_cases hlt : a < c.1
    · rw [insertCell, if_pos hlt]
      refine List.pairwise_cons.mpr ⟨fun d hd => ?_, hl⟩
      rcases List.mem_cons.mp hd with rfl | hd
      · exact hlt
      · exact Nat.lt_trans hlt (hc d hd)
    · rw [insertCell, if_neg hlt]
      refine List.pairwise_cons.mpr ⟨fun d hd => ?_, ih hl' fun d hd => ha d (by simp [hd])⟩
      rcases mem_insertCell hd with rfl | hd
      · have : c.1 ≠ a := ha c (by simp)
        show c.1 < a
        omega
      · exact hc d hd

/-! ## One byte of a block -/

@[simp] theorem Memory.storeByte_len (m : Memory) (a : Nat) (v : Byte) : (m.storeByte a v).len = m.len := rfl

@[simp] theorem Memory.byteAt_storeByte_same (m : Memory) (a : Nat) (v : Byte) : (m.storeByte a v).byteAt a = v :=
  cellByte_storeCell_same a v m.cells

@[simp] theorem Memory.byteAt_storeByte_ne (m : Memory) {a q : Nat} (h : q ≠ a) (v : Byte) :
    (m.storeByte a v).byteAt q = m.byteAt q :=
  cellByte_storeCell_ne h v m.cells

/-- A store inside the block keeps the canonical form. -/
theorem Memory.wf_storeByte {m : Memory} (h : m.wf) {a : Nat} (ha : a < m.len) (v : Byte) :
    (m.storeByte a v).wf := by
  obtain ⟨hlen, hrise, hcell⟩ := h
  have hrise' : (eraseCell a m.cells).Pairwise (fun c d => c.1 < d.1) := hrise.filter _
  have hcell' : ∀ c ∈ eraseCell a m.cells, c.1 < m.len ∧ c.2 ≠ unlistedByte :=
    fun c hc => hcell c (List.mem_of_mem_filter hc)
  by_cases hv : v = unlistedByte
  · refine ⟨hlen, ?_, ?_⟩ <;> simp only [Memory.storeByte, storeCell, if_pos hv]
    · exact hrise'
    · exact hcell'
  · refine ⟨hlen, ?_, ?_⟩ <;> simp only [Memory.storeByte, storeCell, if_neg hv]
    · exact insertCell_rising hrise' fun c hc => not_mem_eraseCell hc
    · intro c hc
      rcases mem_insertCell hc with rfl | hc
      · exact ⟨ha, hv⟩
      · exact hcell' c hc

/-! ## Every operation keeps the canonical form -/

theorem Memory.wf_tryNew {len : Nat} {m : Memory} (h : Memory.tryNew len = .ok m) : m.wf := by
  unfold Memory.tryNew at h
  split at h <;> split at h <;> cases h
  simp_all [Memory.wf, memLenAdmissible]

@[simp] theorem Memory.writeU8_len (m : Memory) (off : Nat) (v : Byte) : (m.writeU8 off v).2.len = m.len := by
  unfold Memory.writeU8; split <;> rfl

@[simp] theorem Memory.writeU16_len (m : Memory) (off : Nat) (v : Word) : (m.writeU16 off v).2.len = m.len := by
  unfold Memory.writeU16; split <;> rfl

theorem Memory.wf_writeU8 {m : Memory} (h : m.wf) (off : Nat) (v : Byte) : (m.writeU8 off v).2.wf := by
  unfold Memory.writeU8
  split
  · exact Memory.wf_storeByte h ‹_› v
  · exact h

theorem Memory.wf_writeU16 {m : Memory} (h : m.wf) (off : Nat) (v : Word) : (m.writeU16 off v).2.wf := by
  unfold Memory.writeU16
  split
  · rename_i hin
    have h1 : (m.storeByte off (hi8 v)).wf := Memory.wf_storeByte h (by omega) _
    exact Memory.wf_storeByte h1 (by rw [Memory.storeByte_len]; omega) _
  · exact h

theorem Memory.wf_loadBytes {m : Memory} (h : m.wf) (off : Nat) (bytes : List Byte) : (m.loadBytes off bytes).wf := by
  induction bytes generalizing m off with
  | nil => exact h
  | cons b rest ih => exact ih (Memory.wf_writeU8 h off b) (off + 1)

theorem Memory.wf_buildMemory {len off : Nat} {image : List Byte} {m : Memory}
    (h : buildMemory len off image = .ok m) : m.wf := by
  unfold buildMemory at h
  cases hn : Memory.tryNew len with
  | error e => rw [hn] at h; cases h
  | ok m0 =>
    rw [hn] at h
    cases h
    exact Memory.wf_loadBytes (Memory.wf_tryNew hn) off image

theorem State.reset_mem_wf : State.reset.mem.wf := by
  simp [State.reset, Memory.wf, memLenAdmissible, Config.memLen]

/-- A register file seen as a block has the canonical form. -/
theorem RegFile.wf_toBlock (x : RegFile) : x.toBlock.wf := by
  have hz : Memory.wf { len := RegFile.blockLen, cells := [] } := by
    simp [Memory.wf, memLenAdmissible, RegFile.blockLen, Reg.all]
  suffices h : ∀ (rs : List Reg) (m : Memory), m.wf →
      (rs.foldl (fun b r => (b.writeU16 (Reg.byteOffset r) (x.get r)).2) m).wf from h _ _ hz
  intro rs
  induction rs with
  | nil => exact fun m h => h
  | cons r rs ih => exact fun m h => ih _ (Memory.wf_writeU16 h _ _)

/-! ## Equal bytes, equal blocks -/

theorem cellByte_eq_unlisted {a : Nat} {l : List Host.Cell} (h : ∀ c ∈ l, c.1 ≠ a) :
    cellByte a l = unlistedByte := by
  induction l with
  | nil => rfl
  | cons c l ih => simp [cellByte, h c (by simp), ih fun d hd => h d (by simp [hd])]

theorem cells_eq_of_cellByte_eq {l k : List Host.Cell}
    (hl : l.Pairwise (fun c d => c.1 < d.1)) (hk : k.Pairwise (fun c d => c.1 < d.1))
    (nl : ∀ c ∈ l, c.2 ≠ unlistedByte) (nk : ∀ c ∈ k, c.2 ≠ unlistedByte)
    (h : ∀ a, cellByte a l = cellByte a k) : l = k := by
  induction l generalizing k with
  | nil =>
    cases k with
    | nil => rfl
    | cons d k => have := h d.1; simp [cellByte] at this; exact absurd this.symm (nk d (by simp))
  | cons c l ih =>
    obtain ⟨hc, hl'⟩ := List.pairwise_cons.mp hl
    cases k with
    | nil => have := h c.1; simp [cellByte] at this; exact absurd this (nl c (by simp))
    | cons d k =>
      obtain ⟨hd, hk'⟩ := List.pairwise_cons.mp hk
      have hfst : c.1 = d.1 := by
        rcases Nat.lt_trichotomy c.1 d.1 with hlt | heq | hgt
        · have hz : cellByte c.1 (d :: k) = unlistedByte := cellByte_eq_unlisted fun e he => by
            rcases List.mem_cons.mp he with rfl | he
            · omega
            · have := hd e he; omega
          have := h c.1; rw [hz] at this; simp [cellByte] at this
          exact absurd this (nl c (by simp))
        · exact heq
        · have hz : cellByte d.1 (c :: l) = unlistedByte := cellByte_eq_unlisted fun e he => by
            rcases List.mem_cons.mp he with rfl | he
            · omega
            · have := hc e he; omega
          have := h d.1; rw [hz] at this; simp [cellByte] at this
          exact absurd this.symm (nk d (by simp))
      have hsnd : c.2 = d.2 := by have := h c.1; simpa [cellByte, hfst] using this
      have hcd : c = d := Prod.ext hfst hsnd
      subst hcd
      congr 1
      refine ih hl' hk' (fun e he => nl e (by simp [he])) (fun e he => nk e (by simp [he])) fun a => ?_
      by_cases ha : c.1 = a
      · subst ha
        rw [cellByte_eq_unlisted fun e he => by have := hc e he; omega,
          cellByte_eq_unlisted fun e he => by have := hd e he; omega]
      · have := h a; simpa [cellByte, ha] using this

/-- Two canonical blocks of one length that read the same at every offset are the same data. -/
theorem Memory.eq_of_byteAt_eq {m n : Memory} (hm : m.wf) (hn : n.wf) (hlen : m.len = n.len)
    (h : ∀ a, m.byteAt a = n.byteAt a) : m = n := by
  have hcells := cells_eq_of_cellByte_eq hm.2.1 hn.2.1 (fun c hc => (hm.2.2 c hc).2)
    (fun c hc => (hn.2.2 c hc).2) h
  cases m; cases n; simp_all

end Sys2Proof.Machine
end

