-- ==== Sys2Proof/Laws/Decode.lean ====
section
/-! SUPPORT. The small lemmas of the encoding: byte order, register bytes, lengths, and the fetches from a list. -/

namespace Sys2Proof

/-- `a ++ b` is the number `a * 256 + b` (R7). -/
theorem joinBytes_toNat (a b : Byte) : (joinBytes a b).toNat = a.toNat * 256 + b.toNat := by
  have hb : b.toNat < 2 ^ 8 := b.isLt
  rw [joinBytes, BitVec.toNat_append, ← Nat.shiftLeft_add_eq_or_of_lt hb, Nat.shiftLeft_eq]

theorem hi8_toNat (v : Word) : (hi8 v).toNat = v.toNat / 256 := by
  have := v.isLt
  rw [hi8, BitVec.extractLsb'_toNat, Nat.shiftRight_eq_div_pow]; omega

theorem lo8_toNat (v : Word) : (lo8 v).toNat = v.toNat % 256 := by
  rw [lo8, BitVec.extractLsb'_toNat, Nat.shiftRight_eq_div_pow]; omega

@[simp] theorem hi8_joinBytes (a b : Byte) : hi8 (joinBytes a b) = a := by
  apply BitVec.eq_of_toNat_eq; rw [hi8_toNat, joinBytes_toNat]; omega

@[simp] theorem lo8_joinBytes (a b : Byte) : lo8 (joinBytes a b) = b := by
  apply BitVec.eq_of_toNat_eq; rw [lo8_toNat, joinBytes_toNat]; omega

@[simp] theorem joinBytes_hi8_lo8 (v : Word) : joinBytes (hi8 v) (lo8 v) = v := by
  apply BitVec.eq_of_toNat_eq; rw [joinBytes_toNat, hi8_toNat, lo8_toNat]; omega

/-! ## Register bytes -/

theorem Reg.index_lt (r : Reg) : r.index < 10 := by cases r <;> decide

theorem Reg.index_injective {r q : Reg} (h : r.index = q.index) : r = q := by
  cases r <;> cases q <;> first | rfl | exact absurd h (by decide)

@[simp] theorem Reg.ofByte_toByte (r : Reg) : Reg.ofByte r.toByte = some r := by cases r <;> rfl

theorem Reg.toByte_toNat (r : Reg) : r.toByte.toNat = r.index := by cases r <;> rfl

/-- The index of the register a byte names is the byte. -/
theorem Reg.ofByte_eq_some {b : Byte} {r : Reg} (h : Reg.ofByte b = some r) : b = r.toByte := by
  unfold Reg.ofByte at h
  obtain ⟨hlt, hget⟩ := List.getElem?_eq_some_iff.mp h
  have key : ∀ n : Fin 10, Reg.all[n.1]'n.2 = r → n.1 = r.index := by
    intro n; fin_cases n <;> (rintro rfl; rfl)
  have := key ⟨b.toNat, hlt⟩ hget
  apply BitVec.eq_of_toNat_eq
  rw [Reg.toByte_toNat]
  exact this

/-- A byte that names no register is above 9. -/
theorem Reg.ofByte_eq_none {b : Byte} : Reg.ofByte b = none ↔ 9 < b.toNat := by
  unfold Reg.ofByte
  rw [List.getElem?_eq_none_iff]
  have : Reg.all.length = 10 := rfl
  omega

/-! ## The opcode map -/

/-- A byte that selects an opcode is the opcode's byte. -/
theorem OpcodeMap.lookup_eq_some {m : OpcodeMap} {op : Byte} {o : Opcode} (h : m.lookup op = some o) :
    op = m.byteOf o := by
  unfold OpcodeMap.lookup at h
  repeat' split at h
  all_goals first | (cases h; assumption) | cases h

/-- Under an admissible map every opcode's byte selects it: the order of the tests does not matter (R69). -/
theorem OpcodeMap.lookup_byteOf {m : OpcodeMap} (hm : m.admissible = true) (o : Opcode) :
    m.lookup (m.byteOf o) = some o := by
  have h := of_decide_eq_true hm
  simp only [List.nodup_cons, List.mem_cons, List.not_mem_nil, or_false, not_or] at h
  obtain ⟨⟨h12, h13, h14, h15, h16⟩, ⟨h23, h24, h25, h26⟩, ⟨h34, h35, h36⟩, ⟨h45, h46⟩, h56, _⟩ := h
  cases o <;> simp only [OpcodeMap.lookup, OpcodeMap.byteOf, Ne.symm h12, Ne.symm h13, Ne.symm h14, Ne.symm h15,
    Ne.symm h16, Ne.symm h23, Ne.symm h24, Ne.symm h25, Ne.symm h26, Ne.symm h34, Ne.symm h35, Ne.symm h36,
    Ne.symm h45, Ne.symm h46, Ne.symm h56, if_true, if_false]

theorem Config.opcodes_admissible : Config.opcodes.admissible = true := by decide

/-! ## Lengths -/

theorem Opcode.length_eq (o : Opcode) :
    o.length = match o with
      | .movLitReg => 4
      | .movRegReg => 3
      | .movRegMem => 4
      | .movMemReg => 4
      | .addRegReg => 3
      | .jmpNotEq => 5 := by
  cases o <;> rfl

theorem Instr.length_le (i : Instr) : i.length ≤ 5 := by
  cases i <;> simp [Instr.length, Instr.opcode, Opcode.length_eq]

theorem Instr.le_length (i : Instr) : 3 ≤ i.length := by
  cases i <;> simp [Instr.length, Instr.opcode, Opcode.length_eq]

@[simp] theorem encodeWith_length (m : OpcodeMap) (i : Instr) : (encodeWith m i).length = i.length := by
  cases i <;> simp [encodeWith, Instr.operandBytes, wordBytes, Instr.length, Instr.opcode, Opcode.length_eq]

/-! ## Fetches from a list -/

@[simp] theorem listSource_fetch8_cons (b : Byte) (rest : List Byte) :
    listSource.fetch8 (b :: rest) = .ok (b, rest) := rfl

@[simp] theorem listSource_fetch8_nil : listSource.fetch8 [] = .error .truncated := rfl

@[simp] theorem listSource_fetch16_cons (a b : Byte) (rest : List Byte) :
    listSource.fetch16 (a :: b :: rest) = .ok (joinBytes a b, rest) := rfl

/-- Everything a byte fetch from a list can do. -/
theorem listSource_fetch8_ok {bytes rest : List Byte} {b : Byte} (h : listSource.fetch8 bytes = .ok (b, rest)) :
    bytes = b :: rest := by
  cases bytes with
  | nil => cases h
  | cons c cs => cases h; rfl

/-- Everything a word fetch from a list can do. -/
theorem listSource_fetch16_ok {bytes rest : List Byte} {w : Word} (h : listSource.fetch16 bytes = .ok (w, rest)) :
    bytes = hi8 w :: lo8 w :: rest := by
  rcases bytes with _ | ⟨a, _ | ⟨b, cs⟩⟩
  · cases h
  · cases h
  · cases h; simp

end Sys2Proof
end

