-- ==== Sys2Proof/Laws/Ops.lean ====
section
/-! SUPPORT. For each shared operation, once, everything it can do. -/

namespace Sys2Proof.Machine

/-! ## The CPU's memory primitives (R43) -/

theorem State.memRead8_eq (s : State) (a : Word) :
    s.memRead8 a = if a.toNat < s.mem.len then .ok (s.mem.byteAt a.toNat) else .error (.memOutOfBounds a) := by
  unfold State.memRead8 Memory.readU8
  by_cases h : a.toNat < s.mem.len <;> simp [h]

theorem State.memRead16_eq (s : State) (a : Word) :
    s.memRead16 a = if a.toNat + 2 ≤ s.mem.len
      then .ok (joinBytes (s.mem.byteAt a.toNat) (s.mem.byteAt (a.toNat + 1)))
      else .error (.memOutOfBounds a) := by
  unfold State.memRead16 Memory.readU16
  by_cases h : a.toNat + 2 ≤ s.mem.len <;> simp [h]

theorem State.memWrite8_eq (s : State) (a : Word) (v : Byte) :
    s.memWrite8 a v = if a.toNat < s.mem.len
      then .ok (s.withMem (s.mem.storeByte a.toNat v)) else .error (.memOutOfBounds a) := by
  unfold State.memWrite8 Memory.writeU8
  by_cases h : a.toNat < s.mem.len <;> simp [h, statusOk, statusOutOfBounds]

theorem State.memWrite16_eq (s : State) (a v : Word) :
    s.memWrite16 a v = if a.toNat + 2 ≤ s.mem.len
      then .ok (s.withMem ((s.mem.storeByte a.toNat (hi8 v)).storeByte (a.toNat + 1) (lo8 v)))
      else .error (.memOutOfBounds a) := by
  unfold State.memWrite16 Memory.writeU16
  by_cases h : a.toNat + 2 ≤ s.mem.len <;> simp [h, statusOk, statusOutOfBounds]

/-! ## The end of an effect -/

@[simp] theorem State.conclude_ok (s t : State) : s.conclude (.ok t) = .next t := rfl
@[simp] theorem State.conclude_error (s : State) (f : FaultRecord) : s.conclude (.error f) = .next (s.raise f) := rfl

/-! ## The fetches (40_step_cycle.md R66 to R68) -/

/-- Everything the advance of IP can do. -/
theorem State.advance_eq (s : State) (n : Nat) :
    s.advance n = if s.pc.toNat + n > 0xFFFF then .error (s.raise (.ipOverflow s.pc))
      else .ok (s.atPc (s.pc.toNat + n)) := rfl

/-- Everything `Fetch8` can do. -/
theorem State.fetch8_eq (s : State) :
    s.fetch8 = if s.mem.len ≤ s.pc.toNat then .error (s.raise (.memOutOfBounds s.pc))
      else if s.pc.toNat + 1 > 0xFFFF then .error (s.raise (.ipOverflow s.pc))
      else .ok (s.mem.byteAt s.pc.toNat, s.atPc (s.pc.toNat + 1)) := by
  unfold State.fetch8
  rw [State.memRead8_eq, State.advance_eq]
  by_cases h1 : s.mem.len ≤ s.pc.toNat
  · simp [h1, Nat.not_lt.mpr h1]
  · by_cases h2 : s.pc.toNat + 1 > 0xFFFF <;> simp [h1, Nat.lt_of_not_le h1, h2]

/-- Everything `Fetch16` can do. -/
theorem State.fetch16_eq (s : State) :
    s.fetch16 = if s.mem.len < s.pc.toNat + 2 then .error (s.raise (.memOutOfBounds s.pc))
      else if s.pc.toNat + 2 > 0xFFFF then .error (s.raise (.ipOverflow s.pc))
      else .ok (joinBytes (s.mem.byteAt s.pc.toNat) (s.mem.byteAt (s.pc.toNat + 1)), s.atPc (s.pc.toNat + 2)) := by
  unfold State.fetch16
  rw [State.memRead16_eq, State.advance_eq]
  by_cases h1 : s.mem.len < s.pc.toNat + 2
  · simp [h1, Nat.not_le.mpr h1]
  · by_cases h2 : s.pc.toNat + 2 > 0xFFFF <;> simp [h1, Nat.le_of_not_lt h1, h2]

@[simp] theorem pcSource_fetch8 (s : State) : pcSource.fetch8 s = s.fetch8 := rfl
@[simp] theorem pcSource_fetch16 (s : State) : pcSource.fetch16 s = s.fetch16 := rfl
@[simp] theorem pcSource_unknownOpcode (op : Byte) (s : State) :
    pcSource.unknownOpcode op s = s.raise (.unknownOpcode op) := rfl
@[simp] theorem pcSource_unknownRegister (b : Byte) (s : State) :
    pcSource.unknownRegister b s = s.raise (.unknownRegister b) := rfl

/-! ## One step -/

/-- Everything a step that answers a next state has done: the core was not halted, and either a fetch raised a fault or
the decoded instruction's effect ran at the state the fetches left. -/
theorem stepWith_next {m : OpcodeMap} {s t : State} (h : stepWith m s = .next t) :
    s.fault = none ∧
      (s.fetchInstr m = .error t ∨ ∃ i u, s.fetchInstr m = .ok (i, u) ∧ exec i u = .next t) := by
  unfold stepWith at h
  split at h
  · cases h
  · rename_i hf
    refine ⟨hf, ?_⟩
    split at h
    · rename_i u he
      left; rw [he]; cases h; rfl
    · rename_i i u he
      exact Or.inr ⟨i, u, he, h⟩

/-- An effect always answers a next state. -/
theorem exec_is_next (i : Instr) (s : State) : ∃ t, exec i s = .next t := by
  cases i with
  | movLitReg lit dst => exact ⟨_, rfl⟩
  | movRegReg src dst => exact ⟨_, rfl⟩
  | movRegMem src addr =>
    cases h : s.storeOperand addr (s.source src) with
    | ok t => exact ⟨t, by simp [exec, execMovRegMem, h]⟩
    | error f => exact ⟨s.raise f, by simp [exec, execMovRegMem, h]⟩
  | movMemReg addr dst =>
    cases h : s.loadOperand addr with
    | ok v => exact ⟨s.destination dst v, by simp [exec, execMovMemReg, h, Except.map]⟩
    | error f => exact ⟨s.raise f, by simp [exec, execMovMemReg, h, Except.map]⟩
  | addRegReg a b => exact ⟨_, rfl⟩
  | jmpNotEq lit addr => exact ⟨_, rfl⟩

end Sys2Proof.Machine
end

