-- ==== Sys2Proof/Laws/PerInstr.lean ====
section
/-! SUPPORT. Facts about every instruction as syntax, one lemma per constructor. -/

namespace Sys2Proof.Laws

/-- An instruction is well formed, its length is the one its opcode fixes (30_encoding.md R55), 3 to 5 bytes (R52), and
its encoding has that length and begins with its opcode's byte, under every opcode map. -/
def EncodingShape.Statement (i : Instr) : Prop :=
  i.wellFormed = true ∧ 3 ≤ i.length ∧ i.length ≤ 5 ∧
    ∀ m, (encodeWith m i).length = i.length ∧ (encodeWith m i).head? = some (m.byteOf i.opcode)

theorem EncodingShape.movLitReg (lit : Word) (dst : Reg) : EncodingShape.Statement (.movLitReg lit dst) :=
  ⟨rfl, Instr.le_length _, Instr.length_le _, fun m => ⟨encodeWith_length m _, rfl⟩⟩

theorem EncodingShape.movRegReg (src dst : Reg) : EncodingShape.Statement (.movRegReg src dst) :=
  ⟨rfl, Instr.le_length _, Instr.length_le _, fun m => ⟨encodeWith_length m _, rfl⟩⟩

theorem EncodingShape.movRegMem (src : Reg) (addr : Word) : EncodingShape.Statement (.movRegMem src addr) :=
  ⟨rfl, Instr.le_length _, Instr.length_le _, fun m => ⟨encodeWith_length m _, rfl⟩⟩

theorem EncodingShape.movMemReg (addr : Word) (dst : Reg) : EncodingShape.Statement (.movMemReg addr dst) :=
  ⟨rfl, Instr.le_length _, Instr.length_le _, fun m => ⟨encodeWith_length m _, rfl⟩⟩

theorem EncodingShape.addRegReg (a b : Reg) : EncodingShape.Statement (.addRegReg a b) :=
  ⟨rfl, Instr.le_length _, Instr.length_le _, fun m => ⟨encodeWith_length m _, rfl⟩⟩

theorem EncodingShape.jmpNotEq (lit addr : Word) : EncodingShape.Statement (.jmpNotEq lit addr) :=
  ⟨rfl, Instr.le_length _, Instr.length_le _, fun m => ⟨encodeWith_length m _, rfl⟩⟩

end Sys2Proof.Laws
end

