-- ==== Sys2Proof/Tests/Slice0.lean ====
section
/-! SUPPORT. The model's own tests: smoke tests of the checks, words written out from the encoding tables, the spec's
test vectors (95_test_vectors.md; each theorem names its own), and for every statement with hypotheses a state that
meets them, at the boundaries of its clauses. -/

namespace Sys2Proof.Tests

open Sys2Proof Sys2Proof.Machine

/-! ## Helpers -/

/-- A core with a memory of `len` bytes, `code` stored from IP on and `data` elsewhere, and some registers set. -/
def coreAt (len ip : Nat) (code : List Byte) (regs : List (Reg × Word) := [])
    (data : Nat × List Byte := (0, [])) : State :=
  let mem : Memory := { len := len, cells := [] }
  let start : State := { regs := RegFile.zero, mem := (mem.loadBytes data.1 data.2).loadBytes ip code, fault := none }
  regs.foldl (fun s e => s.writeReg e.1 e.2) (start.atPc ip)

/-- The state an outcome goes on with. -/
def goesOn (o : Host.Outcome State Fault Refusal) : Option State :=
  match o with
  | .next t => some t
  | .fault _ => none
  | .refused _ => none

/-- After one step: IP, the latch as `(code, info)`, the value of a register and the two bytes at an offset. -/
def afterStep (s : State) (r : Reg) (a : Nat) : Option (Nat × Option (Nat × Nat) × Word × Byte × Byte) :=
  (goesOn (step s)).map fun t =>
    (t.pc.toNat, hostReadFault t, t.readReg r, t.mem.byteAt a, t.mem.byteAt (a + 1))

/-- IP and the latch after one step. -/
def pcAndLatch (s : State) : Option (Nat × Option (Nat × Nat)) :=
  (goesOn (step s)).map fun t => (t.pc.toNat, hostReadFault t)

/-- Whether a core meets the hypotheses of the whole-step statements, under the decided opcode values. -/
def meetsWholeStep (op : Byte) (s : State) : Bool :=
  Config.opcodes.admissible && decide s.mem.wf && decide (s.fault = none) && decide (s.pc.toNat < s.mem.len) &&
    decide (s.pc.toNat < 0xFFFF) && decide (s.codeByte 0 = op)

/-- For each core: whether it meets those hypotheses, and IP and the latch after its step. -/
def wholeSteps (op : Byte) (cores : List State) : List (Bool × Option (Nat × Option (Nat × Nat))) :=
  cores.map fun s => (meetsWholeStep op s, pcAndLatch s)

/-! ## Smoke tests of the checks -/

theorem test_wellFormed_refuses_equal_opcodes :
    ({ Config.opcodes with jmpNotEq := 0x10 } : OpcodeMap).admissible = false := by decide

theorem test_wellFormed_refuses_bad_lengths :
    memLenAdmissible 3 = false ∧ memLenAdmissible 65538 = false ∧ memLenAdmissible 65536 = true ∧
      memLenAdmissible 0 = true := by decide

theorem test_wellFormed_refuses_register_byte_ten :
    registerByteLegal 0x0A = false ∧ registerByteLegal 0xFF = false ∧ registerByteLegal 0x09 = true := by decide

/-- Not rising, outside the block, a listed zero byte, an odd length. -/
theorem test_memory_wf_refuses_other_forms :
    ¬ Memory.wf { len := 4, cells := [(2, 1), (1, 1)] } ∧ ¬ Memory.wf { len := 4, cells := [(4, 1)] } ∧
      ¬ Memory.wf { len := 4, cells := [(1, 0)] } ∧ ¬ Memory.wf { len := 5, cells := [] } := by decide

/-! ## Decoding: words written out from 30_encoding.md R52, R53 (bytes of the rules' own examples) -/

theorem test_decode_movLitReg : decode [0x10, 0x12, 0x34, 0x02] = .ok (.movLitReg 0x1234 .r1, []) := by rfl
theorem test_decode_movRegReg : decode [0x11, 0x02, 0x03] = .ok (.movRegReg .r1 .r2, []) := by rfl
theorem test_decode_movRegMem : decode [0x12, 0x02, 0x01, 0x00] = .ok (.movRegMem .r1 0x0100, []) := by rfl
theorem test_decode_movMemReg : decode [0x13, 0x01, 0x00, 0x02] = .ok (.movMemReg 0x0100 .r1, []) := by rfl
theorem test_decode_addRegReg : decode [0x14, 0x02, 0x03] = .ok (.addRegReg .r1 .r2, []) := by rfl
theorem test_decode_jmpNotEq :
    decode [0x15, 0x00, 0x03, 0x00, 0x40, 0xEE] = .ok (.jmpNotEq 0x0003 0x0040, [0xEE]) := by rfl

/-- R56, R57, R55: `0x00` and `0x16` are no opcodes; `0x12` is not register index 2; the first bad register byte wins. -/
theorem test_decode_refuses :
    decode [0x00, 0, 0, 0, 0] = .error (.unknownOpcode 0x00) ∧ decode [0x16] = .error (.unknownOpcode 0x16) ∧
      decode [0x14, 0x12, 0x02] = .error (.unknownRegister 0x12) ∧
      decode [0x11, 0x0A, 0x0B] = .error (.unknownRegister 0x0A) ∧ decode [0x10, 0x12] = .error .truncated :=
  ⟨rfl, rfl, rfl, rfl, rfl⟩

theorem test_encode_jmpNotEq : encode (.jmpNotEq 0x0003 0x0040) = [0x15, 0x00, 0x03, 0x00, 0x40] := by decide

/-- The words of spec/opcode_table.json: byte 0 is the most significant byte of the row's `match`. -/
theorem test_decodeTableWord :
    decodeTableWord 32 0x10123402 = some (.movLitReg 0x1234 .r1) ∧
      decodeTableWord 24 0x140203 = some (.addRegReg .r1 .r2) ∧
      decodeTableWord 40 0x1500030040 = some (.jmpNotEq 0x0003 0x0040) ∧
      decodeTableWord 32 0x0A000000 = none := by decide

theorem test_withFetchWord_runs_the_word :
    goesOn (step (State.reset.withFetchWord 32 0x12000080)) =
      goesOn (exec (.movRegMem .ip 0x0080) ((State.reset.withFetchWord 32 0x12000080).atPc 4)) := by decide

/-! ## The register file (vectors RF2, RF4, RF5) -/

theorem test_registerFile_bytes :
    (RegFile.zero.set .acc 0xBEEF).toBlock = { len := 20, cells := [(2, 0xBE), (3, 0xEF)] } := by decide

theorem witness_registerIndexDecode :
    offsetFor 0x00 = .ok 0 ∧ offsetFor 0x09 = .ok 18 ∧ offsetFor 0x0A = .error (.unknownRegister 0x0A) ∧
      offsetFor 0xFF = .error (.unknownRegister 0xFF) := ⟨rfl, rfl, rfl, rfl⟩

/-! ## The port (vectors M1 to M15, S3) -/

theorem witness_portReads :
    let m : Memory := { len := 4, cells := [(1, 0xAB), (2, 0xCD)] }
    m.readU8 3 = .ok 0x00 ∧ m.readU8 4 = .error .outOfBounds ∧ m.readU16 1 = .ok 0xABCD ∧
      m.readU16 2 = .ok 0xCD00 ∧ m.readU16 3 = .error .outOfBounds := ⟨rfl, rfl, rfl, rfl, rfl⟩

theorem witness_portWrites :
    let m : Memory := { len := 4, cells := [] }
    m.writeU16 2 0x1234 = (0, { len := 4, cells := [(2, 0x12), (3, 0x34)] }) ∧ m.writeU16 3 0xFFFF = (1, m) ∧
      m.writeU8 3 0x7F = (0, { len := 4, cells := [(3, 0x7F)] }) ∧ m.writeU8 4 0x7F = (1, m) := by decide

/-- M9: an overlapping word shares a byte on either side. -/
theorem witness_portRoundTrip :
    let m : Memory := { len := 4, cells := [(0, 0x11), (1, 0x22), (2, 0x33), (3, 0x44)] }
    let n : Memory := { len := 4, cells := [(0, 0x11), (1, 0xAA), (2, 0xBB), (3, 0x44)] }
    m.writeU16 1 0xAABB = (0, n) ∧ 1 + 3 ≤ m.len ∧ 0 + 1 = 1 ∧ m.writeU8 3 0x44 = (0, m) := by decide

theorem witness_mixedWidth :
    let m : Memory := { len := 2, cells := [] }
    m.writeU16 0 0xABCD = (0, { len := 2, cells := [(0, 0xAB), (1, 0xCD)] }) ∧
      m.writeU8 0 0xAB = (0, { len := 2, cells := [(0, 0xAB)] }) ∧
      (Memory.mk 2 [(0, 0xAB)]).writeU8 (0 + 1) 0xCD = (0, { len := 2, cells := [(0, 0xAB), (1, 0xCD)] }) := by decide

/-- M10 to M14. -/
theorem witness_construction :
    Memory.tryNew 3 = .error .odd ∧ Memory.tryNew 65538 = .error .tooLarge ∧
      Memory.tryNew 65537 = .error .oddAndTooLarge ∧ Memory.tryNew 65536 = .ok { len := 65536, cells := [] } ∧
      Memory.tryNew 0 = .ok { len := 0, cells := [] } := ⟨rfl, rfl, rfl, rfl, rfl⟩

/-- The four bounds at their boundary in a block of four bytes, and a canonical block for the last clause. -/
theorem witness_cpuMemoryPrimitives :
    let s := coreAt 4 0 [0x11, 0x22, 0x33, 0x44]
    (3 : Word).toNat < s.mem.len ∧ s.mem.len ≤ (4 : Word).toNat ∧ (2 : Word).toNat + 2 ≤ s.mem.len ∧
      s.mem.len < (3 : Word).toNat + 2 ∧ s.mem.wf := by decide

/-! ## Reset and the host (vectors X1, X8) -/

theorem witness_entryPoint :
    pcAndLatch (resetWith { len := 0, cells := [] }) = some (0, some (1, 0)) ∧
      decodeWith Config.opcodes (Memory.window { len := 256, cells := [(0, 0x14)] } 0 5) =
        .ok (.addRegReg .ip .ip, [0x00, 0x00]) := ⟨by decide, rfl⟩

theorem witness_hostInspection :
    let s := coreAt 4 0 [0x11, 0x22, 0x33, 0x44]
    hostReadMemory s 2 2 = some [0x33, 0x44] ∧ hostReadMemory s 3 2 = none ∧
      s.mem.bytes = [0x11, 0x22, 0x33, 0x44] := by decide

theorem witness_resetInvariants : Memory.wf { len := 256, cells := [(0, 0x14)] } := by decide

/-! ## Encoding -/

theorem witness_decodeOfEncode :
    let m : OpcodeMap := ⟨1, 2, 3, 4, 5, 6⟩
    m.admissible = true ∧ (Instr.jmpNotEq 0x8001 0xFFFE).wellFormed = true ∧
      decodeWith m [6, 0x80, 0x01, 0xFF, 0xFE] = .ok (.jmpNotEq 0x8001 0xFFFE, []) := ⟨by decide, rfl, rfl⟩

theorem witness_everyEncoding :
    decode [0x14, 9, 0, 0, 0] = .ok (.addRegReg .r8 .ip, [0, 0]) ∧
      decode [0x0F, 0, 0, 0, 0] = .error (.unknownOpcode 0x0F) ∧
      decode [0x14, 0, 10, 0, 0] = .error (.unknownRegister 10) := ⟨rfl, rfl, rfl⟩

/-! ## The step -/

/-- The last instruction that fits below `0xFFFF`: MOV_REG_REG at `0xFFFC`. -/
theorem witness_stepRunsDecoded :
    let s := coreAt 65536 0xFFFC [0x11, 0x02, 0x03]
    s.fault = none ∧ decode s.codeAtPc = .ok (.movRegReg .r1 .r2, [0x00]) ∧ s.pc.toNat + 3 ≤ 0xFFFF :=
  ⟨rfl, rfl, by decide⟩

/-- X6: after a fault there is no transition. -/
theorem witness_haltedCore :
    (coreAt 4 0 []).fault = none ∧ ((coreAt 4 0 []).raise (.unknownOpcode 0)).fault = some (.unknownOpcode 0) ∧
      goesOn (step ((coreAt 4 0 []).raise (.unknownOpcode 0))) = none := by decide

/-- V8 (second step), X10, X2. -/
theorem witness_opcodeFetchFaults :
    pcAndLatch (coreAt 4 4 []) = some (4, some (1, 4)) ∧
      pcAndLatch (coreAt 65536 0xFFFF [0x11]) = some (0xFFFF, some (4, 0xFFFF)) ∧
      pcAndLatch (coreAt 65536 0xFFFE [0x16]) = some (0xFFFF, some (2, 0x16)) := by decide

/-! ## Whole steps: the hypotheses met, and each clause at its boundary -/

/-- V6, X5, V7, X9, V5, V1. -/
theorem witness_movLitReg :
    wholeSteps 0x10 [coreAt 2 0 [0x10, 0x12], coreAt 65536 0xFFFD [0x10, 0x12, 0x34],
        coreAt 256 253 [0x10, 0x12, 0x34], coreAt 65536 0xFFFC [0x10, 0x12, 0x34, 0x02],
        coreAt 256 0 [0x10, 0x12, 0x34, 0x0A], coreAt 4 0 [0x10, 0x12, 0x34, 0x02]] =
      [(true, some (1, some (1, 1))), (true, some (0xFFFE, some (4, 0xFFFE))), (true, some (256, some (1, 256))),
        (true, some (0xFFFF, some (4, 0xFFFF))), (true, some (4, some (3, 0x0A))), (true, some (4, none))] := by decide

theorem test_movLitReg :
    afterStep (coreAt 4 0 [0x10, 0x12, 0x34, 0x02]) .r1 0 = some (4, none, 0x1234, 0x10, 0x12) := by decide

/-- V18 (one byte shorter), the top of memory, V15, V18, X4, V16, V12. -/
theorem witness_movRegReg :
    wholeSteps 0x11 [coreAt 256 255 [0x11], coreAt 65536 0xFFFE [0x11, 0x02], coreAt 256 0 [0x11, 0x0A, 0x0B],
        coreAt 256 254 [0x11, 0x02], coreAt 65536 0xFFFD [0x11, 0x02, 0x03], coreAt 256 0 [0x11, 0x02, 0x0B],
        coreAt 256 16 [0x11, 0x00, 0x02]] =
      [(true, some (256, some (1, 256))), (true, some (0xFFFF, some (4, 0xFFFF))), (true, some (2, some (3, 0x0A))),
        (true, some (256, some (1, 256))), (true, some (0xFFFF, some (4, 0xFFFF))), (true, some (3, some (3, 0x0B))),
        (true, some (19, none))] := by decide

/-- V10: the first register is the source. -/
theorem test_movRegReg :
    afterStep (coreAt 256 16 [0x11, 0x02, 0x03] [(.r1, 0xBEEF)]) .r2 0 = some (19, none, 0xBEEF, 0, 0) := by decide

/-- The register fetch as above; V25; the address fetch at its bounds; V22; V23. -/
theorem witness_movRegMem :
    wholeSteps 0x12 [coreAt 256 255 [0x12], coreAt 65536 0xFFFE [0x12, 0x02], coreAt 256 0 [0x12, 0x0C, 0x00, 0x80],
        coreAt 256 253 [0x12, 0x02, 0x00], coreAt 65536 0xFFFC [0x12, 0x02, 0x00, 0x80],
        coreAt 256 0 [0x12, 0x02, 0x00, 0xFF], coreAt 256 0 [0x12, 0x02, 0x00, 0xFE]] =
      [(true, some (256, some (1, 256))), (true, some (0xFFFF, some (4, 0xFFFF))), (true, some (2, some (3, 0x0C))),
        (true, some (255, some (1, 255))), (true, some (0xFFFE, some (4, 0xFFFE))), (true, some (4, some (1, 0xFF))),
        (true, some (4, none))] := by decide

/-- V23: the last legal word, high byte first. -/
theorem test_movRegMem :
    afterStep (coreAt 256 0 [0x12, 0x02, 0x00, 0xFE] [(.r1, 0x1234)]) .r1 0xFE =
      some (4, none, 0x1234, 0x12, 0x34) := by decide

/-- V22: a store that straddles the end stores not even its first byte. -/
theorem test_movRegMem_stores_nothing_at_the_end :
    afterStep (coreAt 256 0 [0x12, 0x02, 0x00, 0xFF] [(.r1, 0x1234)]) .r1 0xFF =
      some (4, some (1, 0xFF), 0x1234, 0, 0) := by decide

/-- The address and register fetches as for MOV_LIT_REG; V33; V32; V35. -/
theorem witness_movMemReg :
    wholeSteps 0x13 [coreAt 2 0 [0x13, 0x00], coreAt 65536 0xFFFD [0x13, 0x00, 0x80],
        coreAt 256 253 [0x13, 0x00, 0x80], coreAt 65536 0xFFFC [0x13, 0x00, 0x80, 0x02],
        coreAt 256 0 [0x13, 0x00, 0xFF, 0x0A], coreAt 256 0 [0x13, 0x00, 0xFF, 0x02],
        coreAt 256 0 [0x13, 0x00, 0xFE, 0x02]] =
      [(true, some (1, some (1, 1))), (true, some (0xFFFE, some (4, 0xFFFE))), (true, some (256, some (1, 256))),
        (true, some (0xFFFF, some (4, 0xFFFF))), (true, some (4, some (3, 0x0A))), (true, some (4, some (1, 0xFF))),
        (true, some (4, none))] := by decide

/-- V31: an odd address, high byte first. -/
theorem test_movMemReg :
    afterStep (coreAt 256 0 [0x13, 0x00, 0x81, 0x02] [] (0x81, [0xCD, 0xEF])) .r1 0x81 =
      some (4, none, 0xCDEF, 0xCD, 0xEF) := by decide

/-- The fetches as for MOV_REG_REG; A9; A12; A1. -/
theorem witness_addRegReg :
    wholeSteps 0x14 [coreAt 256 255 [0x14], coreAt 65536 0xFFFE [0x14, 0x02], coreAt 256 0 [0x14, 0x0A, 0x02],
        coreAt 256 254 [0x14, 0x02], coreAt 65536 0xFFFD [0x14, 0x02, 0x03], coreAt 256 0 [0x14, 0x02, 0x0A],
        coreAt 256 8 [0x14, 0x02, 0x03]] =
      [(true, some (256, some (1, 256))), (true, some (0xFFFF, some (4, 0xFFFF))), (true, some (2, some (3, 0x0A))),
        (true, some (256, some (1, 256))), (true, some (0xFFFF, some (4, 0xFFFF))), (true, some (3, some (3, 0x0A))),
        (true, some (11, none))] := by decide

/-- A2: the sum wraps, and replaces what ACC held. -/
theorem test_addRegReg_wraps :
    afterStep (coreAt 256 0 [0x14, 0x02, 0x03] [(.r1, 0xFFFF), (.r2, 0x0001), (.acc, 0x0077)]) .acc 0 =
      some (3, none, 0x0000, 0x14, 0x02) := by decide

/-- A6: ACC is read before it is written. -/
theorem test_addRegReg_acc_as_source :
    afterStep (coreAt 256 0 [0x14, 0x01, 0x01] [(.acc, 0x4001)]) .acc 0 = some (3, none, 0x8002, 0x14, 0x01) := by
  decide

/-- The literal's and the target's fetches at their bounds (J7), J2, J8. -/
theorem witness_jmpNotEq :
    wholeSteps 0x15 [coreAt 2 0 [0x15, 0x00], coreAt 65536 0xFFFD [0x15, 0x00, 0x03], coreAt 4 0 [0x15, 0x00, 0x03, 0x00],
        coreAt 65536 0xFFFB [0x15, 0x00, 0x03, 0x00, 0x40], coreAt 256 0 [0x15, 0x00, 0x03, 0x00, 0x40] [(.acc, 3)],
        coreAt 256 0 [0x15, 0x01, 0x03, 0x00, 0x40] [(.acc, 3)]] =
      [(true, some (1, some (1, 1))), (true, some (0xFFFE, some (4, 0xFFFE))), (true, some (3, some (1, 3))),
        (true, some (0xFFFE, some (4, 0xFFFE))), (true, some (5, none)), (true, some (0x40, none))] := by decide

/-! ## Witnesses of the other statements -/

/-- The last word of memory is inside it, the word after it is not; and the JMP_NOT_EQ condition both ways. -/
theorem witness_completions :
    let s := coreAt 256 0 [] [(.acc, 3)]
    (effectiveAddress 0x00FE).toNat + 2 ≤ s.mem.len ∧ s.mem.len < (effectiveAddress 0x00FF).toNat + 2 ∧
      (3 : Word) = s.readReg .acc ∧ (4 : Word) ≠ s.readReg .acc := by decide

/-- A step that stores, from a well-formed memory whose latch is clear, and is justified. -/
theorem witness_invariants :
    let s := coreAt 256 0 [0x12, 0x02, 0x00, 0x80] [(.r1, 0x1234)]
    s.mem.wf ∧ s.fault = none ∧ s.latchJustified Config.opcodes ∧ (goesOn (step s)).isSome = true :=
  ⟨by decide, by decide, trivial, by decide⟩

/-- Steps that raise: on the way (V16, `A + 3`), at the data access (V22, `A + 4`), at the opcode fetch (X3, X10). -/
theorem witness_faultsArePrecise :
    pcAndLatch (coreAt 256 0 [0x11, 0x02, 0x0B]) = some (3, some (3, 0x0B)) ∧
      pcAndLatch (coreAt 256 0 [0x12, 0x02, 0x00, 0xFF]) = some (4, some (1, 0xFF)) ∧
      pcAndLatch (coreAt 256 0x100 []) = some (0x100, some (1, 0x100)) ∧
      pcAndLatch (coreAt 65536 0xFFFF [0x11]) = some (0xFFFF, some (4, 0xFFFF)) := by decide

/-- A completed step of each constructor; in the first, R1 changes and is named. -/
theorem witness_completedSteps :
    [coreAt 256 0 [0x10, 0x12, 0x34, 0x02], coreAt 256 0 [0x11, 0x02, 0x03], coreAt 256 0 [0x12, 0x02, 0x00, 0x80],
        coreAt 256 0 [0x13, 0x00, 0x80, 0x02], coreAt 256 0 [0x14, 0x02, 0x03], coreAt 256 0 [0x15, 0x00, 0x00, 0x00, 0x40],
        coreAt 256 0 [0x15, 0x00, 0x01, 0x00, 0x40]].map pcAndLatch =
      [some (4, none), some (3, none), some (4, none), some (4, none), some (3, none), some (5, none),
        some (0x40, none)] ∧
      (coreAt 256 0 [0x10, 0x12, 0x34, 0x02]).readReg .r1 = 0 := by decide

/-- R3 is not named by `ADD_REG_REG R1 R2`, which completes. -/
theorem witness_unnamedRegisters :
    let s := coreAt 256 0 [0x14, 0x02, 0x03]
    decodeWith Config.opcodes s.codeAtPc = .ok (.addRegReg .r1 .r2, [0, 0]) ∧
      Reg.r3 ∉ registersNamed (.addRegReg .r1 .r2) ∧ Reg.r3 ≠ .ip ∧ Reg.r3 ≠ .acc ∧
      (goesOn (step s)).isSome = true := ⟨rfl, by decide, by decide, by decide, by decide⟩

/-- V1, V3, V13, V14, V34: IP after a sequential step and after each move into IP. -/
theorem witness_ipAfterStep :
    pcAndLatch (coreAt 256 0 [0x10, 0x00, 0x20, 0x00]) = some (0x20, none) ∧
      pcAndLatch (coreAt 256 0 [0x11, 0x02, 0x00] [(.r1, 0x40)]) = some (0x40, none) ∧
      pcAndLatch (coreAt 256 16 [0x11, 0x00, 0x00]) = some (19, none) ∧
      pcAndLatch (coreAt 256 0 [0x13, 0x00, 0x80, 0x00] [] (0x80, [0x00, 0x40])) = some (0x40, none) := by decide

/-- V12, V24, A7: IP as a source. -/
theorem witness_ipAsSource :
    afterStep (coreAt 256 16 [0x11, 0x00, 0x02]) .r1 0 = some (19, none, 19, 0, 0) ∧
      afterStep (coreAt 256 0 [0x12, 0x00, 0x00, 0x80]) .r1 0x80 = some (4, none, 0, 0x00, 0x04) ∧
      afterStep (coreAt 256 0x20 [0x14, 0x00, 0x02] [(.r1, 1)]) .acc 0 = some (0x23, none, 0x24, 0, 0) :=
  ⟨by decide, by decide, by decide⟩

/-- V26: the instruction overwrites its own first two bytes; the store completes below the top of memory. -/
theorem witness_storeIsSeen :
    let s := coreAt 256 4 [] [(.r1, 0xAAAA)]
    s.fault = none ∧ (0x0000 : Word).toNat + 2 ≤ 0xFFFF ∧
      (goesOn (exec (.movRegMem .r1 0x0000) s)).map State.fault = some none := by decide

/-- J6: the first offset outside memory. -/
theorem witness_jumpTarget :
    let s := coreAt 256 5 []
    s.fault = none ∧ (0x0001 : Word) ≠ s.readReg .acc ∧ s.mem.len ≤ (0x0100 : Word).toNat := by decide

/-- X9, and a jump that would leave. -/
theorem witness_endAtTop :
    decodeWith Config.opcodes (coreAt 65536 0xFFFB [0x15, 0x00, 0x01, 0x00, 0x00]).codeAtPc =
        .ok (.jmpNotEq 1 0, []) ∧
      (coreAt 65536 0xFFFB [0x15, 0x00, 0x01, 0x00, 0x00]).pc.toNat + 5 = 65536 ∧
      pcAndLatch (coreAt 65536 0xFFFC [0x10, 0x12, 0x34, 0x02]) = some (0xFFFF, some (4, 0xFFFF)) :=
  ⟨rfl, by decide, by decide⟩

/-- P5: a run that ends faulted at its second step. -/
theorem witness_runs :
    (match runFrom Config.opcodes 0 2 (resetWith ((Memory.mk 256 []).loadBytes 0
        [0x10, 0x00, 0x07, 0x02, 0x12, 0x02, 0x01, 0x00])) with
      | .faulted k f _ => some (k, f)
      | _ => none) = some (2, .memOutOfBounds 0x0100) := by decide

end Sys2Proof.Tests
end

section
/-! The register file (10_state.md R11 to R15): the register a byte names, and the ten cells as the 20-byte Memory
Block. A block is described cell by cell: `Memory.cellWord` is the word at a register's byte offset, `RegFile.toBlock`
is the fold of `RegFile.storeReg` over the ten registers, and that fold leaves `x[i]` in cell `i` and zero past the end. -/

namespace Sys2Proof

/-! ## The register a byte names -/

theorem Reg.mem_all (r : Reg) : r ∈ Reg.all := by cases r <;> decide

/-- The ten legal register bytes are accepted, in index order (R15). -/
theorem Reg.exists_ofByte_of_le {b : Byte} (hb : b.toNat ≤ 9) : ∃ r, Reg.ofByte b = some r ∧ r.index = b.toNat := by
  cases hr : Reg.ofByte b with
  | none =>
    have : 9 < b.toNat := Reg.ofByte_eq_none.mp hr
    omega
  | some r => exact ⟨r, rfl, by rw [Reg.ofByte_eq_some hr, Reg.toByte_toNat]⟩

theorem Reg.exists_index_eq {n : Nat} (hn : n < 10) : ∃ r : Reg, r.index = n := by
  have hb : (BitVec.ofNat 8 n).toNat = n := by rw [BitVec.toNat_ofNat]; omega
  obtain ⟨r, -, hr⟩ := Reg.exists_ofByte_of_le (b := BitVec.ofNat 8 n) (by omega)
  exact ⟨r, hr.trans hb⟩

/-- Every offset is the high byte of a cell, the low byte of a cell, or past the twenty bytes (R11). -/
theorem Reg.offset_cases (k : Nat) :
    (∃ r : Reg, k = 2 * r.index) ∨ (∃ r : Reg, k = 2 * r.index + 1) ∨ 20 ≤ k := by
  by_cases hk : k < 20
  · obtain ⟨r, hr⟩ := Reg.exists_index_eq (n := k / 2) (by omega)
    rcases Nat.mod_two_eq_zero_or_one k with heven | hodd
    · exact .inl ⟨r, by omega⟩
    · exact .inr (.inl ⟨r, by omega⟩)
  · exact .inr (.inr (by omega))

end Sys2Proof

namespace Sys2Proof.Machine

theorem offsetFor_of_some {b : Byte} {r : Reg} (h : Reg.ofByte b = some r) : offsetFor b = .ok (2 * r.index) := by
  simp [offsetFor, h, Reg.byteOffset]

theorem offsetFor_of_none {b : Byte} (h : Reg.ofByte b = none) : offsetFor b = .error (.unknownRegister b) := by
  simp [offsetFor, h]

/-- Settles O3, from the two halves of the index decode. -/
theorem registerIndexDecode : Obligations.RegisterIndexDecode := by
  intro b
  constructor
  · intro hb
    obtain ⟨r, hr, hindex⟩ := Reg.exists_ofByte_of_le hb
    exact ⟨r, hr, hindex, by rw [offsetFor_of_some hr, hindex]⟩
  · intro hb
    have hnone : Reg.ofByte b = none := Reg.ofByte_eq_none.mpr hb
    exact ⟨hnone, offsetFor_of_none hnone⟩

/-! ## A word written through the port (R37) -/

section
variable {m : Memory} {off : Nat}

theorem Memory.writeU16_eq (h : off + 2 ≤ m.len) (v : Word) :
    m.writeU16 off v = (0, (m.storeByte off (hi8 v)).storeByte (off + 1) (lo8 v)) :=
  if_pos h

theorem Memory.byteAt_writeU16_high (h : off + 2 ≤ m.len) (v : Word) : (m.writeU16 off v).2.byteAt off = hi8 v := by
  simp [Memory.writeU16_eq h]

theorem Memory.byteAt_writeU16_low (h : off + 2 ≤ m.len) (v : Word) :
    (m.writeU16 off v).2.byteAt (off + 1) = lo8 v := by
  simp [Memory.writeU16_eq h]

/-- In bounds or not, a word write leaves every byte but its two. -/
theorem Memory.byteAt_writeU16_ne {k : Nat} (hhigh : k ≠ off) (hlow : k ≠ off + 1) (v : Word) :
    (m.writeU16 off v).2.byteAt k = m.byteAt k := by
  by_cases h : off + 2 ≤ m.len
  · simp [Memory.writeU16_eq h, hhigh, hlow]
  · rw [Memory.writeU16, if_neg h]

end

/-! ## Cells of a block -/

/-- The word of a block at the byte offset of a register, bounds not tested. -/
def Memory.cellWord (m : Memory) (r : Reg) : Word :=
  joinBytes (m.byteAt (2 * r.index)) (m.byteAt (2 * r.index + 1))

@[simp] theorem Memory.hi8_cellWord (m : Memory) (r : Reg) : hi8 (m.cellWord r) = m.byteAt (2 * r.index) :=
  hi8_joinBytes _ _

@[simp] theorem Memory.lo8_cellWord (m : Memory) (r : Reg) : lo8 (m.cellWord r) = m.byteAt (2 * r.index + 1) :=
  lo8_joinBytes _ _

/-- One step of `RegFile.toBlock`: a register's cell written to the block. -/
def RegFile.storeReg (x : RegFile) (m : Memory) (r : Reg) : Memory := (m.writeU16 (2 * r.index) (x.get r)).2

theorem RegFile.toBlock_eq_foldl (x : RegFile) :
    x.toBlock = Reg.all.foldl x.storeReg { len := 20, cells := [] } := rfl

@[simp] theorem RegFile.storeReg_len (x : RegFile) (m : Memory) (r : Reg) : (x.storeReg m r).len = m.len :=
  Memory.writeU16_len _ _ _

section
variable (x : RegFile) {m : Memory}

/-- Every cell of a register lies inside a block of twenty bytes (R11). -/
theorem Reg.cell_in_bounds (hm : m.len = 20) (r : Reg) : 2 * r.index + 2 ≤ m.len := by
  have := r.index_lt
  omega

theorem RegFile.cellWord_storeReg (hm : m.len = 20) (q r : Reg) :
    (x.storeReg m q).cellWord r = if r = q then x.get r else m.cellWord r := by
  by_cases hrq : r = q
  · subst hrq
    have hin := Reg.cell_in_bounds hm r
    simp [Memory.cellWord, RegFile.storeReg, Memory.byteAt_writeU16_high hin, Memory.byteAt_writeU16_low hin]
  · have hindex : r.index ≠ q.index := fun h => hrq (Reg.index_injective h)
    rw [if_neg hrq, Memory.cellWord, RegFile.storeReg, Memory.byteAt_writeU16_ne (by omega) (by omega),
      Memory.byteAt_writeU16_ne (by omega) (by omega), ← Memory.cellWord]

theorem RegFile.byteAt_storeReg_past {k : Nat} (hk : 20 ≤ k) (q : Reg) :
    (x.storeReg m q).byteAt k = m.byteAt k := by
  have := q.index_lt
  exact Memory.byteAt_writeU16_ne (by omega) (by omega) _

theorem RegFile.foldl_storeReg_len (rs : List Reg) : (rs.foldl x.storeReg m).len = m.len := by
  induction rs generalizing m with
  | nil => rfl
  | cons q rs ih => rw [List.foldl_cons, ih, RegFile.storeReg_len]

/-- The cells of the registers stored hold those registers, the others what they held. -/
theorem RegFile.cellWord_foldl_storeReg (hm : m.len = 20) (rs : List Reg) (r : Reg) :
    (rs.foldl x.storeReg m).cellWord r = if r ∈ rs then x.get r else m.cellWord r := by
  induction rs generalizing m with
  | nil => simp
  | cons q rs ih =>
    rw [List.foldl_cons, ih (by rw [RegFile.storeReg_len, hm]), RegFile.cellWord_storeReg x hm]
    by_cases hrs : r ∈ rs <;> simp [hrs]

theorem RegFile.byteAt_foldl_storeReg_past {k : Nat} (hk : 20 ≤ k) (rs : List Reg) :
    (rs.foldl x.storeReg m).byteAt k = m.byteAt k := by
  induction rs generalizing m with
  | nil => rfl
  | cons q rs ih => rw [List.foldl_cons, ih, RegFile.byteAt_storeReg_past x hk]

end

/-! ## The register file as a block -/

@[simp] theorem RegFile.toBlock_len (x : RegFile) : x.toBlock.len = 20 := by
  rw [RegFile.toBlock_eq_foldl, RegFile.foldl_storeReg_len]

/-- Cell `i` of the block is `x[i]` (R11). -/
@[simp] theorem RegFile.cellWord_toBlock (x : RegFile) (r : Reg) : x.toBlock.cellWord r = x.get r := by
  rw [RegFile.toBlock_eq_foldl, RegFile.cellWord_foldl_storeReg x rfl, if_pos r.mem_all]

theorem RegFile.byte_high (x : RegFile) (r : Reg) : x.byte (2 * r.index) = hi8 (x.get r) := by
  rw [← RegFile.cellWord_toBlock, Memory.hi8_cellWord, RegFile.byte]

theorem RegFile.byte_low (x : RegFile) (r : Reg) : x.byte (2 * r.index + 1) = lo8 (x.get r) := by
  rw [← RegFile.cellWord_toBlock, Memory.lo8_cellWord, RegFile.byte]

theorem RegFile.byte_past (x : RegFile) {k : Nat} (hk : 20 ≤ k) : x.byte k = unlistedByte := by
  rw [RegFile.byte, RegFile.toBlock_eq_foldl, RegFile.byteAt_foldl_storeReg_past x hk]
  rfl

/-- A register write leaves every byte but the two of its cell (R14). -/
theorem RegFile.byte_set_ne (x : RegFile) {r : Reg} {k : Nat} (hhigh : k ≠ 2 * r.index) (hlow : k ≠ 2 * r.index + 1)
    (v : Word) : (x.set r v).byte k = x.byte k := by
  rcases Reg.offset_cases k with ⟨q, rfl⟩ | ⟨q, rfl⟩ | hk
  · have hq : q ≠ r := by rintro rfl; exact hhigh rfl
    rw [RegFile.byte_high, RegFile.byte_high, RegFile.get_set_ne x hq]
  · have hq : q ≠ r := by rintro rfl; exact hlow rfl
    rw [RegFile.byte_low, RegFile.byte_low, RegFile.get_set_ne x hq]
  · rw [RegFile.byte_past _ hk, RegFile.byte_past _ hk]

/-- Reading a register's cell through the port never fails (R13). -/
theorem RegFile.readU16_toBlock (x : RegFile) (r : Reg) : x.toBlock.readU16 (2 * r.index) = .ok (x.get r) := by
  rw [Memory.readU16, if_pos (Reg.cell_in_bounds x.toBlock_len r), ← Memory.cellWord, RegFile.cellWord_toBlock]

/-- Writing a register's cell through the port gives the block of the register file after the write (R14): both blocks
are canonical, of one length, and read the same at every offset. -/
theorem RegFile.writeU16_toBlock (x : RegFile) (r : Reg) (v : Word) :
    x.toBlock.writeU16 (2 * r.index) v = (0, (x.set r v).toBlock) := by
  have hin : 2 * r.index + 2 ≤ x.toBlock.len := Reg.cell_in_bounds x.toBlock_len r
  have hbytes : ∀ k, (x.toBlock.writeU16 (2 * r.index) v).2.byteAt k = (x.set r v).byte k := by
    intro k
    by_cases hhigh : k = 2 * r.index
    · subst hhigh
      rw [Memory.byteAt_writeU16_high hin, RegFile.byte_high, RegFile.get_set_same]
    by_cases hlow : k = 2 * r.index + 1
    · subst hlow
      rw [Memory.byteAt_writeU16_low hin, RegFile.byte_low, RegFile.get_set_same]
    · rw [Memory.byteAt_writeU16_ne hhigh hlow, RegFile.byte_set_ne x hhigh hlow, RegFile.byte]
  have hblock : (x.toBlock.writeU16 (2 * r.index) v).2 = (x.set r v).toBlock :=
    Memory.eq_of_byteAt_eq (Memory.wf_writeU16 x.wf_toBlock _ v) (x.set r v).wf_toBlock
      (by rw [Memory.writeU16_len, RegFile.toBlock_len, RegFile.toBlock_len]) hbytes
  exact Prod.ext (by rw [Memory.writeU16_eq hin]) hblock

/-- Settles O1, cell by cell: the fold that builds the block leaves `x[i]` in cell `i`. -/
theorem registerFileIsTwentyByteBlock : Obligations.RegisterFileIsTwentyByteBlock := by
  intro x r v
  refine ⟨x.toBlock_len, x.readU16_toBlock r, ?word, x.writeU16_toBlock r v, ?high, ?low,
    fun k hhigh hlow => x.byte_set_ne hhigh hlow v⟩
  case word => exact (x.cellWord_toBlock r).symm
  case high => rw [RegFile.byte_high, RegFile.get_set_same]
  case low => rw [RegFile.byte_low, RegFile.get_set_same]

end Sys2Proof.Machine
end

section
/-! The port of a Memory Block (20_memory.md R34 to R38, R44). Each of the four operations has one equation in bounds
and one out of bounds; a write is described by the bytes of the block after it, and a write of status 0 by the bound it
met. The statements about the port are read off these. -/

namespace Sys2Proof.Machine

section
variable {m n : Memory} {off : Nat}

/-! ## Reads (R34, R35) -/

theorem Memory.readU8_eq (h : off < m.len) : m.readU8 off = .ok (m.byteAt off) := if_pos h

theorem Memory.readU8_outOfBounds (h : m.len ≤ off) : m.readU8 off = .error .outOfBounds :=
  if_neg (Nat.not_lt.mpr h)

theorem Memory.readU16_eq (h : off + 2 ≤ m.len) :
    m.readU16 off = .ok (joinBytes (m.byteAt off) (m.byteAt (off + 1))) :=
  if_pos h

theorem Memory.readU16_outOfBounds (h : m.len < off + 2) : m.readU16 off = .error .outOfBounds :=
  if_neg (Nat.not_le.mpr h)

/-! ## Writes (R36 to R38) -/

theorem Memory.writeU8_eq (h : off < m.len) (b : Byte) : m.writeU8 off b = (0, m.storeByte off b) := if_pos h

theorem Memory.writeU8_outOfBounds (h : m.len ≤ off) (b : Byte) : m.writeU8 off b = (1, m) :=
  if_neg (Nat.not_lt.mpr h)

theorem Memory.writeU16_outOfBounds (h : m.len < off + 2) (v : Word) : m.writeU16 off v = (1, m) :=
  if_neg (Nat.not_le.mpr h)

theorem Memory.byteAt_writeU8_same (h : off < m.len) (b : Byte) : (m.writeU8 off b).2.byteAt off = b := by
  rw [Memory.writeU8_eq h, Memory.byteAt_storeByte_same]

/-- In bounds or not, a byte write leaves every other byte. -/
theorem Memory.byteAt_writeU8_ne {k : Nat} (hk : k ≠ off) (b : Byte) :
    (m.writeU8 off b).2.byteAt k = m.byteAt k := by
  rcases Nat.lt_or_ge off m.len with hin | hout
  · rw [Memory.writeU8_eq hin, Memory.byteAt_storeByte_ne m hk]
  · rw [Memory.writeU8_outOfBounds hout]

/-- Status 0 says that the byte lies in the block, and which block is left. -/
theorem Memory.writeU8_eq_ok_iff {b : Byte} :
    m.writeU8 off b = (0, n) ↔ off < m.len ∧ (m.writeU8 off b).2 = n := by
  rcases Nat.lt_or_ge off m.len with hin | hout
  · simp [Memory.writeU8_eq hin, hin]
  · simp [Memory.writeU8_outOfBounds hout, Nat.not_lt.mpr hout]

/-- Status 0 says that both bytes lie in the block, and which block is left. -/
theorem Memory.writeU16_eq_ok_iff {v : Word} :
    m.writeU16 off v = (0, n) ↔ off + 2 ≤ m.len ∧ (m.writeU16 off v).2 = n := by
  rcases Nat.lt_or_ge m.len (off + 2) with hout | hin
  · simp [Memory.writeU16_outOfBounds hout, Nat.not_le.mpr hout]
  · simp [Memory.writeU16_eq hin, hin]

/-! ## A read after a write (R44) -/

theorem Memory.readU8_writeU8_same (h : off < m.len) (b : Byte) : (m.writeU8 off b).2.readU8 off = .ok b := by
  rw [Memory.readU8_eq (by rwa [Memory.writeU8_len]), Memory.byteAt_writeU8_same h]

theorem Memory.readU16_writeU16_same (h : off + 2 ≤ m.len) (v : Word) :
    (m.writeU16 off v).2.readU16 off = .ok v := by
  rw [Memory.readU16_eq (by rwa [Memory.writeU16_len]), Memory.byteAt_writeU16_high h, Memory.byteAt_writeU16_low h,
    joinBytes_hi8_lo8]

/-- The word one byte above shares the low byte stored. -/
theorem Memory.readU16_writeU16_above (h : off + 3 ≤ m.len) (v : Word) :
    (m.writeU16 off v).2.readU16 (off + 1) = .ok (joinBytes (lo8 v) (m.byteAt (off + 2))) := by
  rw [Memory.readU16_eq (by rwa [Memory.writeU16_len]), Memory.byteAt_writeU16_low (by omega),
    Memory.byteAt_writeU16_ne (by omega) (by omega)]

/-- The word one byte below shares the high byte stored. -/
theorem Memory.readU16_writeU16_below {p : Nat} (h : p + 3 ≤ m.len) (v : Word) :
    (m.writeU16 (p + 1) v).2.readU16 p = .ok (joinBytes (m.byteAt p) (hi8 v)) := by
  rw [Memory.readU16_eq (by rw [Memory.writeU16_len]; omega), Memory.byteAt_writeU16_high h,
    Memory.byteAt_writeU16_ne (by omega) (by omega)]

end

/-! ## The statements about the port -/

/-- Settles O6: status 0 gives the bound, and each read is one of the reads after a write. -/
theorem portRoundTrip : Obligations.PortRoundTrip := by
  constructor
  case left =>
    intro m n off v hwrite
    obtain ⟨hin, rfl⟩ := Memory.writeU16_eq_ok_iff.mp hwrite
    refine ⟨Memory.readU16_writeU16_same hin v, fun habove => Memory.readU16_writeU16_above habove v, ?below⟩
    case below =>
      rintro p rfl
      exact Memory.readU16_writeU16_below hin v
  case right =>
    intro m n off b hwrite
    obtain ⟨hin, rfl⟩ := Memory.writeU8_eq_ok_iff.mp hwrite
    exact Memory.readU8_writeU8_same hin b

/-- Settles O5: in bounds by the bytes of the block after the write, out of bounds by the write's equation. -/
theorem portWrites : Obligations.PortWrites := by
  intro m off b v
  refine ⟨?byteIn, fun hout => Memory.writeU8_outOfBounds hout b, ?wordIn,
    fun hout => Memory.writeU16_outOfBounds hout v⟩
  case byteIn =>
    intro hin
    have hstatus : (m.writeU8 off b).1 = 0 := by rw [Memory.writeU8_eq hin]
    exact ⟨hstatus, m.writeU8_len off b, Memory.byteAt_writeU8_same hin b,
      fun _ ha => Memory.byteAt_writeU8_ne ha b⟩
  case wordIn =>
    intro hin
    have hstatus : (m.writeU16 off v).1 = 0 := by rw [Memory.writeU16_eq hin]
    refine ⟨hstatus, m.writeU16_len off v, ?high, ?low, fun _ hhigh hlow => Memory.byteAt_writeU16_ne hhigh hlow v⟩
    case high => rw [Memory.byteAt_writeU16_high hin, hi8_toNat]
    case low => rw [Memory.byteAt_writeU16_low hin, lo8_toNat]

/-- Settles O4, by the two equations of each read. -/
theorem portReads : Obligations.PortReads := by
  intro m off
  refine ⟨Memory.readU8_eq, Memory.readU8_outOfBounds, fun hin => ?word, Memory.readU16_outOfBounds⟩
  case word => exact ⟨_, Memory.readU16_eq hin, joinBytes_toNat _ _⟩

end Sys2Proof.Machine
end

section
/-! The encoding (30_encoding.md): the decoder over any source of bytes, one rule per fetch, and then over a list of
bytes, where decoding and encoding are inverse to each other. -/

namespace Sys2Proof

/-! ## Fetches in sequence -/

section
variable {ε α β : Type}

@[simp] theorem except_ok_bind (a : α) (f : α → Except ε β) : (Except.ok a >>= f) = f a := rfl

@[simp] theorem except_error_bind (e : ε) (f : α → Except ε β) : (Except.error e >>= f) = .error e := rfl

theorem except_bind_eq_ok {x : Except ε α} {f : α → Except ε β} {b : β} :
    (x >>= f) = .ok b ↔ ∃ a, x = .ok a ∧ f a = .ok b := by
  cases x <;> simp

end

/-! ## The decoder over any source -/

section
variable {σ ε : Type} (src : ByteSource σ ε) {c c' : σ}

theorem ByteSource.fetchReg_of_some {b : Byte} {r : Reg} (hfetch : src.fetch8 c = .ok (b, c'))
    (hr : Reg.ofByte b = some r) : src.fetchReg c = .ok (r, c') := by
  simp [ByteSource.fetchReg, hfetch, hr]

theorem ByteSource.fetchReg_of_none {b : Byte} (hfetch : src.fetch8 c = .ok (b, c')) (hb : Reg.ofByte b = none) :
    src.fetchReg c = .error (src.unknownRegister b c') := by
  simp [ByteSource.fetchReg, hfetch, hb]

/-- A register fetch that succeeds has fetched the byte that names the register. -/
theorem ByteSource.fetchReg_eq_ok {r : Reg} (h : src.fetchReg c = .ok (r, c')) :
    src.fetch8 c = .ok (r.toByte, c') := by
  obtain ⟨⟨b, d⟩, hfetch, hrest⟩ := except_bind_eq_ok.mp h
  cases hr : Reg.ofByte b with
  | none => simp [hr] at hrest
  | some q =>
    obtain ⟨rfl, rfl⟩ : q = r ∧ d = c' := by simpa [hr] using hrest
    rw [hfetch, Reg.ofByte_eq_some hr]

variable {m : OpcodeMap} {op : Byte}

theorem ByteSource.decode_of_lookup {o : Opcode} (hfetch : src.fetch8 c = .ok (op, c')) (ho : m.lookup op = some o) :
    src.decode m c = src.fetchOperands o c' := by
  simp [ByteSource.decode, hfetch, ho]

theorem ByteSource.decode_of_unknown (hfetch : src.fetch8 c = .ok (op, c')) (ho : m.lookup op = none) :
    src.decode m c = .error (src.unknownOpcode op c') := by
  simp [ByteSource.decode, hfetch, ho]

/-- A decode that succeeds has fetched an opcode byte of the table, then its operands. -/
theorem ByteSource.decode_eq_ok {i : Instr} (h : src.decode m c = .ok (i, c')) :
    ∃ op o d, src.fetch8 c = .ok (op, d) ∧ m.lookup op = some o ∧ src.fetchOperands o d = .ok (i, c') := by
  obtain ⟨⟨op, d⟩, hfetch, hrest⟩ := except_bind_eq_ok.mp h
  cases ho : m.lookup op with
  | none => simp [ho] at hrest
  | some o => exact ⟨op, o, d, hfetch, ho, by simpa [ho] using hrest⟩

end

/-! ## The decoder over a list -/

@[simp] theorem listSource_fetchReg_toByte (r : Reg) (rest : List Byte) :
    listSource.fetchReg (r.toByte :: rest) = .ok (r, rest) :=
  ByteSource.fetchReg_of_some _ rfl r.ofByte_toByte

theorem listSource_fetchReg_ok {bytes rest : List Byte} {r : Reg} (h : listSource.fetchReg bytes = .ok (r, rest)) :
    bytes = r.toByte :: rest :=
  listSource_fetch8_ok (ByteSource.fetchReg_eq_ok _ h)

theorem fetchOperands_operandBytes (i : Instr) (rest : List Byte) :
    listSource.fetchOperands i.opcode (i.operandBytes ++ rest) = .ok (i, rest) := by
  cases i with
  | movLitReg lit dst =>
    simp [Instr.opcode, Instr.operandBytes, wordBytes, ByteSource.fetchOperands, ByteSource.fetchMovLitReg]
  | movRegReg src dst =>
    simp [Instr.opcode, Instr.operandBytes, ByteSource.fetchOperands, ByteSource.fetchMovRegReg]
  | movRegMem src addr =>
    simp [Instr.opcode, Instr.operandBytes, wordBytes, ByteSource.fetchOperands, ByteSource.fetchMovRegMem]
  | movMemReg addr dst =>
    simp [Instr.opcode, Instr.operandBytes, wordBytes, ByteSource.fetchOperands, ByteSource.fetchMovMemReg]
  | addRegReg a b =>
    simp [Instr.opcode, Instr.operandBytes, ByteSource.fetchOperands, ByteSource.fetchAddRegReg]
  | jmpNotEq lit addr =>
    simp [Instr.opcode, Instr.operandBytes, wordBytes, ByteSource.fetchOperands, ByteSource.fetchJmpNotEq]

/-- The operands that were fetched are the operand bytes of an instruction of that opcode. -/
theorem fetchOperands_list_ok {o : Opcode} {bytes rest : List Byte} {i : Instr}
    (h : listSource.fetchOperands o bytes = .ok (i, rest)) : o = i.opcode ∧ bytes = i.operandBytes ++ rest := by
  cases o <;> obtain ⟨⟨x, mid⟩, hx, h⟩ := except_bind_eq_ok.mp h <;>
    obtain ⟨⟨y, last⟩, hy, h⟩ := except_bind_eq_ok.mp h <;> cases h
  case movLitReg => exact ⟨rfl, by rw [listSource_fetch16_ok hx, listSource_fetchReg_ok hy]; rfl⟩
  case movRegReg => exact ⟨rfl, by rw [listSource_fetchReg_ok hx, listSource_fetchReg_ok hy]; rfl⟩
  case movRegMem => exact ⟨rfl, by rw [listSource_fetchReg_ok hx, listSource_fetch16_ok hy]; rfl⟩
  case movMemReg => exact ⟨rfl, by rw [listSource_fetch16_ok hx, listSource_fetchReg_ok hy]; rfl⟩
  case addRegReg => exact ⟨rfl, by rw [listSource_fetchReg_ok hx, listSource_fetchReg_ok hy]; rfl⟩
  case jmpNotEq => exact ⟨rfl, by rw [listSource_fetch16_ok hx, listSource_fetch16_ok hy]; rfl⟩

/-- Settles O15: the opcode's byte selects the opcode, whose operand fetches read the operand bytes back. -/
theorem decodeOfEncode : Obligations.DecodeOfEncode := by
  intro m i rest hm _
  calc decodeWith m (encodeWith m i ++ rest)
      = listSource.fetchOperands i.opcode (i.operandBytes ++ rest) :=
        ByteSource.decode_of_lookup _ rfl (OpcodeMap.lookup_byteOf hm i.opcode)
    _ = .ok (i, rest) := fetchOperands_operandBytes i rest

/-- Settles O16: the opcode byte is the one the map gives the opcode, and the operands are the bytes fetched. -/
theorem encodeOfDecode : Obligations.EncodeOfDecode := by
  intro m bytes rest i h
  obtain ⟨op, o, operands, hfetch, ho, hoperands⟩ := ByteSource.decode_eq_ok _ h
  obtain ⟨rfl, rfl⟩ := fetchOperands_list_ok hoperands
  rw [listSource_fetch8_ok hfetch, OpcodeMap.lookup_eq_some ho]
  rfl

/-! ## What does not decode -/

/-- A fetch from `bytes` that succeeds, or fails at a register byte above 9 among them. -/
def FetchedOrBadRegister {α : Type} (bytes : List Byte) (x : Except DecodeError (α × List Byte)) : Prop :=
  (∃ a rest, x = .ok (a, rest)) ∨ ∃ b ∈ bytes, 9 < b.toNat ∧ x = .error (.unknownRegister b)

section
variable {α : Type} {bytes : List Byte}

theorem FetchedOrBadRegister.of_fetchReg {b : Byte} {rest : List Byte}
    {f : Reg × List Byte → Except DecodeError (α × List Byte)} (hb : b ∈ bytes)
    (hf : ∀ r, FetchedOrBadRegister bytes (f (r, rest))) :
    FetchedOrBadRegister bytes (listSource.fetchReg (b :: rest) >>= f) := by
  cases hr : Reg.ofByte b with
  | none =>
    rw [ByteSource.fetchReg_of_none listSource (c := b :: rest) rfl hr]
    exact .inr ⟨b, hb, Reg.ofByte_eq_none.mp hr, rfl⟩
  | some r =>
    rw [ByteSource.fetchReg_of_some listSource (c := b :: rest) rfl hr]
    exact hf r

theorem FetchedOrBadRegister.of_ok (a : α) (rest : List Byte) :
    FetchedOrBadRegister bytes (.ok (a, rest)) := .inl ⟨a, rest, rfl⟩

/-- Four bytes hold the operands of every opcode (R52). -/
theorem fetchOperands_fetchedOrBadRegister (o : Opcode) (b₁ b₂ b₃ b₄ : Byte) (rest : List Byte) :
    FetchedOrBadRegister [b₁, b₂, b₃, b₄] (listSource.fetchOperands o (b₁ :: b₂ :: b₃ :: b₄ :: rest)) := by
  cases o with
  | movLitReg => exact .of_fetchReg (by simp) fun _ => .of_ok _ _
  | movRegReg => exact .of_fetchReg (by simp) fun _ => .of_fetchReg (by simp) fun _ => .of_ok _ _
  | movRegMem => exact .of_fetchReg (by simp) fun _ => .of_ok _ _
  | movMemReg => exact .of_fetchReg (by simp) fun _ => .of_ok _ _
  | addRegReg => exact .of_fetchReg (by simp) fun _ => .of_fetchReg (by simp) fun _ => .of_ok _ _
  | jmpNotEq => exact .of_ok _ _

end

/-- Settles O17: the first byte is unknown, or selects an opcode whose operands are among the four bytes after it. -/
theorem everyEncodingIsDecodedOrIllegal : Obligations.EveryEncodingIsDecodedOrIllegal := by
  intro m bytes hlen
  obtain ⟨op, b₁, b₂, b₃, b₄, rest, rfl⟩ : ∃ op b₁ b₂ b₃ b₄ rest, bytes = op :: b₁ :: b₂ :: b₃ :: b₄ :: rest := by
    match bytes, hlen with
    | op :: b₁ :: b₂ :: b₃ :: b₄ :: rest, _ => exact ⟨op, b₁, b₂, b₃, b₄, rest, rfl⟩
  cases ho : m.lookup op with
  | none => exact .inr (.inl ⟨op, rfl, ho, ByteSource.decode_of_unknown _ rfl ho⟩)
  | some o =>
    rw [decodeWith, ByteSource.decode_of_lookup listSource (c := op :: _) rfl ho]
    rcases fetchOperands_fetchedOrBadRegister o b₁ b₂ b₃ b₄ rest with hok | ⟨b, hb, hbad, herror⟩
    · exact .inl hok
    · exact .inr (.inr ⟨b, List.mem_cons_of_mem op (List.mem_append_left rest hb), hbad, herror⟩)

/-! ## The decided opcode bytes (D1) -/

/-- A byte is unknown exactly when it is no opcode's byte (R56). -/
theorem OpcodeMap.lookup_eq_none {m : OpcodeMap} {op : Byte} : m.lookup op = none ↔ ∀ o, op ≠ m.byteOf o := by
  constructor
  · rintro hnone o rfl
    cases o <;> grind [OpcodeMap.lookup, OpcodeMap.byteOf]
  · intro hne
    cases ho : m.lookup op with
    | none => rfl
    | some o => exact absurd (OpcodeMap.lookup_eq_some ho) (hne o)

/-- The six decided bytes are `0x10` and the five after it, in the order of the table. -/
theorem Config.exists_byteOf_iff {op : Byte} :
    (∃ o, op = Config.opcodes.byteOf o) ↔ 0x10 ≤ op.toNat ∧ op.toNat ≤ 0x15 := by
  constructor
  · rintro ⟨o, rfl⟩
    cases o <;> decide
  · rintro ⟨hlow, hhigh⟩
    have hop : op = BitVec.ofNat 8 op.toNat := by simp
    interval_cases op.toNat
    exacts [⟨.movLitReg, hop⟩, ⟨.movRegReg, hop⟩, ⟨.movRegMem, hop⟩, ⟨.movMemReg, hop⟩, ⟨.addRegReg, hop⟩,
      ⟨.jmpNotEq, hop⟩]

/-- Settles O13: the map is admissible, so each of its bytes selects its opcode, and the others select none. -/
theorem decidedOpcodeBytes : Obligations.DecidedOpcodeBytes := by
  have hlookup := OpcodeMap.lookup_byteOf Config.opcodes_admissible
  refine ⟨hlookup .movLitReg, hlookup .movRegReg, hlookup .movRegMem, hlookup .movMemReg, hlookup .addRegReg,
    hlookup .jmpNotEq, fun op => ?unknown⟩
  case unknown =>
    rw [OpcodeMap.lookup_eq_none, ← not_exists, Config.exists_byteOf_iff]
    omega

/-- Settles O14: each word is the encoding of its instruction. -/
theorem decodeSampleWords : Obligations.DecodeSampleWords := by
  have hdecode : ∀ i : Instr, decode (encode i) = .ok (i, []) := fun i => by
    have := decodeOfEncode Config.opcodes i [] Config.opcodes_admissible (by cases i <;> rfl)
    rwa [List.append_nil] at this
  exact ⟨hdecode (.movLitReg 0x1234 .r1), hdecode (.movRegReg .r1 .r2), hdecode (.addRegReg .r1 .r2),
    hdecode (.jmpNotEq 0x0003 0x0040)⟩

end Sys2Proof
end

section
/-! Main memory and the host: mixed-width accesses (20_memory.md section 3), construction, the CPU's primitives (R43),
and the core after reset as the host sees it (70_reset_and_hazards.md sections 1 and 3). -/

namespace Sys2Proof.Machine

/-! ## The port and the block -/

/-- Settles O7: status 0 gives the bounds, and the bytes after the writes are the ones read. -/
theorem mixedWidthAccessIsBigEndian : Obligations.MixedWidthAccessIsBigEndian := by
  constructor
  case left =>
    intro m n off v hwrite
    obtain ⟨hin, rfl⟩ := Memory.writeU16_eq_ok_iff.mp hwrite
    constructor
    · rw [Memory.readU8_eq (by rw [Memory.writeU16_len]; omega), Memory.byteAt_writeU16_high hin]
    · rw [Memory.readU8_eq (by rw [Memory.writeU16_len]; omega), Memory.byteAt_writeU16_low hin]
  case right =>
    intro m n k off p q hp hq
    obtain ⟨hpin, rfl⟩ := Memory.writeU8_eq_ok_iff.mp hp
    obtain ⟨hqin, rfl⟩ := Memory.writeU8_eq_ok_iff.mp hq
    rw [Memory.writeU8_len] at hqin
    rw [Memory.readU16_eq (by rw [Memory.writeU8_len, Memory.writeU8_len]; omega),
      Memory.byteAt_writeU8_ne (by omega), Memory.byteAt_writeU8_same hpin,
      Memory.byteAt_writeU8_same (by rwa [Memory.writeU8_len])]

theorem Memory.tryNew_eq_ok {len : Nat} (heven : len % 2 = 0) (hlen : len ≤ 65536) :
    Memory.tryNew len = .ok { len := len, cells := [] } := by
  rw [Memory.tryNew, if_pos heven, if_pos hlen]

/-- Settles O8: an accepted length gives the block that lists no cell, and each of the other branches is an error. -/
theorem constructionAcceptsEvenLengths : Obligations.ConstructionAcceptsEvenLengths := by
  intro len
  constructor
  · rintro ⟨heven, hlen⟩
    exact ⟨_, Memory.tryNew_eq_ok heven hlen, rfl, fun _ => rfl⟩
  · intro hbad
    rw [Memory.tryNew]
    split_ifs with heven hlen
    · exact absurd ⟨heven, hlen⟩ hbad
    all_goals exact ⟨_, rfl⟩

/-! ## The CPU's primitives -/

section
variable {s : State} {addr : Word}

theorem State.memWrite8_ok (h : addr.toNat < s.mem.len) (b : Byte) :
    s.memWrite8 addr b = .ok (s.withMem (s.mem.writeU8 addr.toNat b).2) := by
  rw [State.memWrite8_eq, if_pos h, Memory.writeU8_eq h]

theorem State.memWrite16_ok (h : addr.toNat + 2 ≤ s.mem.len) (v : Word) :
    s.memWrite16 addr v = .ok (s.withMem (s.mem.writeU16 addr.toNat v).2) := by
  rw [State.memWrite16_eq, if_pos h, Memory.writeU16_eq h]

theorem State.memRead16_ok (h : addr.toNat + 2 ≤ s.mem.len) :
    s.memRead16 addr = .ok (joinBytes (s.mem.byteAt addr.toNat) (s.mem.byteAt (addr.toNat + 1))) := by
  rw [State.memRead16_eq, if_pos h]

theorem State.memRead16_error (h : s.mem.len < addr.toNat + 2) :
    s.memRead16 addr = .error (.memOutOfBounds addr) := by
  rw [State.memRead16_eq, if_neg (Nat.not_le.mpr h)]

theorem State.memWrite16_error (h : s.mem.len < addr.toNat + 2) (v : Word) :
    s.memWrite16 addr v = .error (.memOutOfBounds addr) := by
  rw [State.memWrite16_eq, if_neg (Nat.not_le.mpr h)]

end

/-- A well-formed block has at most 65536 bytes (R32). -/
theorem Memory.wf.len_le {m : Memory} (h : m.wf) : m.len ≤ 65536 := by
  have hlen := h.1
  rw [memLenAdmissible, Bool.and_eq_true] at hlen
  exact of_decide_eq_true hlen.2

/-- Settles O9, by the equations of the primitives; a block of at most 65536 bytes holds no word at `0xFFFF`. -/
theorem cpuMemoryPrimitives : Obligations.CpuMemoryPrimitives := by
  intro s addr v b
  refine ⟨fun hin => ⟨?read8, _, State.memWrite8_ok hin b, rfl, rfl, Memory.writeU8_len _ _ _,
      Memory.byteAt_writeU8_same hin b, fun _ ha => Memory.byteAt_writeU8_ne ha b⟩,
    fun hout => ⟨?read8Error, ?write8Error⟩,
    fun hin => ⟨State.memRead16_ok hin, _, State.memWrite16_ok hin v, rfl, rfl, Memory.writeU16_len _ _ _,
      Memory.byteAt_writeU16_high hin v, Memory.byteAt_writeU16_low hin v,
      fun _ hhigh hlow => Memory.byteAt_writeU16_ne hhigh hlow v⟩,
    fun hout => ⟨State.memRead16_error hout, State.memWrite16_error hout v⟩,
    fun hwf => ?top⟩
  case read8 => rw [State.memRead8_eq, if_pos hin]
  case read8Error => rw [State.memRead8_eq, if_neg (Nat.not_lt.mpr hout)]
  case write8Error => rw [State.memWrite8_eq, if_neg (Nat.not_lt.mpr hout)]
  case top =>
    have hout : s.mem.len < (0xFFFF : Word).toNat + 2 := Nat.lt_succ_of_le hwf.len_le
    exact ⟨State.memRead16_error hout, State.memWrite16_error hout v⟩

/-- Settles O2: the register laws of `Laws/State`; memory and the latch are untouched by definition. -/
theorem registerWriteIsReadBack : Obligations.RegisterWriteIsReadBack := by
  intro s r v
  refine ⟨s.readReg_writeReg_same r v, fun q hq => s.readReg_writeReg_ne ?other v, ⟨rfl, fun _ => rfl⟩, rfl⟩
  case other => simpa using hq

/-! ## Reset -/

@[simp] theorem resetWith_readReg (mem : Memory) (r : Reg) : (resetWith mem).readReg r = 0 := RegFile.get_zero r
@[simp] theorem resetWith_mem (mem : Memory) : (resetWith mem).mem = mem := rfl
@[simp] theorem resetWith_fault (mem : Memory) : (resetWith mem).fault = none := rfl
@[simp] theorem resetWith_pc (mem : Memory) : (resetWith mem).pc = 0 := rfl

theorem RegFile.byte_zero (k : Nat) : RegFile.zero.byte k = 0 := by
  rcases Reg.offset_cases k with ⟨r, rfl⟩ | ⟨r, rfl⟩ | hk
  · rw [RegFile.byte_high, RegFile.get_zero]; rfl
  · rw [RegFile.byte_low, RegFile.get_zero]; rfl
  · exact RegFile.byte_past _ hk

/-- Settles O10: the registers by `RegFile.zero`, seen as cells and as bytes. -/
theorem resetLeavesZeroedCore : Obligations.ResetLeavesZeroedCore :=
  ⟨fun mem r => ⟨resetWith_readReg mem r, rfl, rfl⟩, fun _ k => RegFile.byte_zero k,
    Memory.tryNew_eq_ok (by decide) (by decide), State.reset_eq_resetWith⟩

/-- Settles O37: the memory is the one handed over, and nothing is latched. -/
theorem resetMeetsTheInvariants : Obligations.ResetMeetsTheInvariants :=
  ⟨fun _ _ hmem => ⟨hmem, trivial⟩, State.reset_mem_wf, trivial⟩

/-! ## Inspection -/

theorem hostReadMemory_eq_some {s : State} {off len : Nat} (h : off + len ≤ s.mem.len) :
    hostReadMemory s off len = some ((List.range len).map fun k => s.mem.byteAt (off + k)) :=
  if_pos h

/-- Settles O12: a range inside the block is a map over its offsets. -/
theorem hostInspection : Obligations.HostInspection := by
  intro s
  refine ⟨fun off len hin => ⟨_, hostReadMemory_eq_some hin, ?length, fun k hk => ?byte⟩,
    fun off len hout => if_neg (Nat.not_le.mpr hout), ?whole, rfl, ?dump⟩
  case length => simp
  case byte => simp [hk]
  case whole => simp [hostReadMemory_eq_some (s := s) (off := 0) (Nat.zero_add _).le, Memory.bytes]
  case dump =>
    intro e he
    obtain ⟨r, -, rfl⟩ := List.mem_map.mp he
    rfl

end Sys2Proof.Machine
end

section
/-! The effect of each instruction (41_move.md, 42_add.md, 43_jump.md): one equation per instruction and case, the
statements about completion read off them, and `exec_cases`, which says once what any effect can do. -/

namespace Sys2Proof.Machine

/-! ## One equation per instruction and case -/

section
variable (s : State)

theorem exec_movLitReg (lit : Word) (dst : Reg) : exec (.movLitReg lit dst) s = .next (s.writeReg dst lit) := rfl

theorem exec_movRegReg (src dst : Reg) :
    exec (.movRegReg src dst) s = .next (s.writeReg dst (s.readReg src)) := rfl

theorem exec_addRegReg (a b : Reg) :
    exec (.addRegReg a b) s = .next (s.writeReg .acc (addWrap (s.readReg a) (s.readReg b))) := rfl

variable {s} {addr : Word}

theorem exec_movRegMem (h : addr.toNat + 2 ≤ s.mem.len) (src : Reg) :
    exec (.movRegMem src addr) s = .next (s.withMem (s.mem.writeU16 addr.toNat (s.readReg src)).2) := by
  show s.conclude (s.memWrite16 addr (s.readReg src)) = _
  rw [State.memWrite16_ok h, State.conclude_ok]

theorem exec_movRegMem_outOfBounds (h : s.mem.len < addr.toNat + 2) (src : Reg) :
    exec (.movRegMem src addr) s = .next (s.raise (.memOutOfBounds addr)) := by
  show s.conclude (s.memWrite16 addr (s.readReg src)) = _
  rw [State.memWrite16_error h, State.conclude_error]

theorem exec_movMemReg (h : addr.toNat + 2 ≤ s.mem.len) (dst : Reg) :
    exec (.movMemReg addr dst) s =
      .next (s.writeReg dst (joinBytes (s.mem.byteAt addr.toNat) (s.mem.byteAt (addr.toNat + 1)))) := by
  show s.conclude ((s.memRead16 addr).map fun v => s.writeReg dst v) = _
  rw [State.memRead16_ok h, Except.map, State.conclude_ok]

theorem exec_movMemReg_outOfBounds (h : s.mem.len < addr.toNat + 2) (dst : Reg) :
    exec (.movMemReg addr dst) s = .next (s.raise (.memOutOfBounds addr)) := by
  show s.conclude ((s.memRead16 addr).map fun v => s.writeReg dst v) = _
  rw [State.memRead16_error h, Except.map, State.conclude_error]

theorem exec_jmpNotEq_taken {lit : Word} (h : lit ≠ s.readReg .acc) :
    exec (.jmpNotEq lit addr) s = .next (s.setPc addr) := by
  have htaken : jumpTaken lit (s.readReg .acc) = true := decide_eq_true h
  show Host.Outcome.next (if jumpTaken lit (s.readReg .acc) then s.setPc addr else s) = _
  rw [if_pos htaken]

theorem exec_jmpNotEq_notTaken {lit : Word} (h : lit = s.readReg .acc) :
    exec (.jmpNotEq lit addr) s = .next s := by
  have hkept : ¬ jumpTaken lit (s.readReg .acc) = true := by simpa [jumpTaken] using h
  show Host.Outcome.next (if jumpTaken lit (s.readReg .acc) then s.setPc addr else s) = _
  rw [if_neg hkept]

end

/-! ## What any effect can do -/

/-- Writing to a register what it holds changes nothing. -/
@[simp] theorem State.writeReg_readReg (s : State) (r : Reg) : s.writeReg r (s.readReg r) = s := by
  simp [State.writeReg, State.readReg]

/-- Everything an effect can do (R71): write the one register its instruction writes (a jump not taken leaves IP what it
was), store one word in bounds, or, with the four bytes of a store or load, raise at a data access out of bounds. -/
theorem exec_cases {i : Instr} {s t : State} (h : exec i s = .next t) :
    (∃ r v, registerWritten i = some r ∧ t = s.writeReg r v) ∨
    (∃ src addr, i = .movRegMem src addr ∧ addr.toNat + 2 ≤ s.mem.len ∧
      t = s.withMem (s.mem.writeU16 addr.toNat (s.readReg src)).2) ∨
    (∃ addr, i.length = 4 ∧ s.mem.len < addr.toNat + 2 ∧ t = s.raise (.memOutOfBounds addr)) := by
  cases i with
  | movLitReg lit dst => cases h; exact .inl ⟨dst, lit, rfl, rfl⟩
  | movRegReg src dst => cases h; exact .inl ⟨dst, _, rfl, rfl⟩
  | movRegMem src addr =>
    rcases Nat.lt_or_ge s.mem.len (addr.toNat + 2) with hout | hin
    · rw [exec_movRegMem_outOfBounds hout] at h
      cases h; exact .inr (.inr ⟨addr, rfl, hout, rfl⟩)
    · rw [exec_movRegMem hin] at h
      cases h; exact .inr (.inl ⟨src, addr, rfl, hin, rfl⟩)
  | movMemReg addr dst =>
    rcases Nat.lt_or_ge s.mem.len (addr.toNat + 2) with hout | hin
    · rw [exec_movMemReg_outOfBounds hout] at h
      cases h; exact .inr (.inr ⟨addr, rfl, hout, rfl⟩)
    · rw [exec_movMemReg hin] at h
      cases h; exact .inl ⟨dst, _, rfl, rfl⟩
  | addRegReg a b => cases h; exact .inl ⟨.acc, _, rfl, rfl⟩
  | jmpNotEq lit addr =>
    by_cases htaken : lit ≠ s.readReg .acc
    · rw [exec_jmpNotEq_taken htaken] at h
      cases h; exact .inl ⟨.ip, addr, rfl, rfl⟩
    · rw [exec_jmpNotEq_notTaken (not_not.mp htaken)] at h
      cases h; exact .inl ⟨.ip, s.readReg .ip, rfl, (s.writeReg_readReg .ip).symm⟩

section
variable {s t : State} {addr : Word}

/-- A store that completes was in bounds. -/
theorem exec_movRegMem_completed {src : Reg} (h : exec (.movRegMem src addr) s = .next t) (ht : t.fault = none) :
    addr.toNat + 2 ≤ s.mem.len ∧ t = s.withMem (s.mem.writeU16 addr.toNat (s.readReg src)).2 := by
  rcases Nat.lt_or_ge s.mem.len (addr.toNat + 2) with hout | hin
  · rw [exec_movRegMem_outOfBounds hout] at h
    cases h; cases ht
  · rw [exec_movRegMem hin] at h
    cases h; exact ⟨hin, rfl⟩

/-- A load that completes was in bounds. -/
theorem exec_movMemReg_completed {dst : Reg} (h : exec (.movMemReg addr dst) s = .next t) (ht : t.fault = none) :
    addr.toNat + 2 ≤ s.mem.len ∧
      t = s.writeReg dst (joinBytes (s.mem.byteAt addr.toNat) (s.mem.byteAt (addr.toNat + 1))) := by
  rcases Nat.lt_or_ge s.mem.len (addr.toNat + 2) with hout | hin
  · rw [exec_movMemReg_outOfBounds hout] at h
    cases h; cases ht
  · rw [exec_movMemReg hin] at h
    cases h; exact ⟨hin, rfl⟩

end

/-! ## Frames -/

theorem sameRegsBut_writeReg (s : State) (r : Reg) (v : Word) : SameRegsBut [r] s (s.writeReg r v) :=
  fun _ hq => s.readReg_writeReg_ne (List.ne_of_not_mem_cons hq) v

theorem SameMemory.refl (s : State) : SameMemory s s := ⟨rfl, fun _ => rfl⟩

/-! ## Completion -/

/-- Settles O28, by the effect's equation. -/
theorem movLitRegCompletes : Obligations.MovLitRegCompletes := fun lit dst s =>
  ⟨_, exec_movLitReg s lit dst, s.readReg_writeReg_same dst lit, sameRegsBut_writeReg s dst lit, .refl s, rfl⟩

/-- Settles O29, by the effect's equation. -/
theorem movRegRegCompletes : Obligations.MovRegRegCompletes := fun src dst s =>
  ⟨_, exec_movRegReg s src dst, s.readReg_writeReg_same dst _, sameRegsBut_writeReg s dst _, .refl s, rfl⟩

/-- Settles O30: the store is a word write of the port, in bounds. -/
theorem movRegMemCompletes : Obligations.MovRegMemCompletes := fun src _ s hin =>
  ⟨_, exec_movRegMem hin src, Memory.byteAt_writeU16_high hin _, Memory.byteAt_writeU16_low hin _,
    Memory.writeU16_len _ _ _, fun _ hhigh hlow => Memory.byteAt_writeU16_ne hhigh hlow _,
    fun q _ => s.withMem_readReg _ q, rfl⟩

/-- Settles O31, by the effect's equation and the value of a big-endian word. -/
theorem movMemRegCompletes : Obligations.MovMemRegCompletes := by
  intro addr dst s hin
  refine ⟨_, exec_movMemReg hin dst, ?word, sameRegsBut_writeReg s dst _, .refl s, rfl⟩
  case word => rw [State.readReg_writeReg_same, joinBytes_toNat, effectiveAddress]

theorem addWrap_eq_add (p q : Word) : addWrap p q = p + q := (BitVec.add_def p q).symm

/-- Settles O32: the sum is addition of 16-bit words, whose unsigned and signed readings are the two sums. -/
theorem addRegRegCompletes : Obligations.AddRegRegCompletes := by
  intro a b s
  refine ⟨_, exec_addRegReg s a b, ?unsigned, ?signed, sameRegsBut_writeReg s .acc _, .refl s, rfl⟩
  case unsigned => rw [State.readReg_writeReg_same, addWrap_eq_add, BitVec.toNat_add]
  case signed => rw [State.readReg_writeReg_same, addWrap_eq_add, BitVec.toInt_add]

/-- Settles O33: taken, the effect replaces IP; not taken, it changes nothing. -/
theorem jmpNotEqCompletes : Obligations.JmpNotEqCompletes := by
  intro lit addr s
  by_cases htaken : lit = s.readReg .acc
  · exact ⟨s, exec_jmpNotEq_notTaken htaken, fun hne => absurd htaken hne, fun _ => rfl, fun _ _ => rfl, .refl s, rfl⟩
  · exact ⟨_, exec_jmpNotEq_taken htaken, fun _ => s.setPc_pc addr, fun heq => absurd heq htaken,
      sameRegsBut_writeReg s .ip addr, .refl s, rfl⟩

/-- Settles O34: both accesses raise at the state the effect began with. -/
theorem dataAccessOutOfBoundsRaises : Obligations.DataAccessOutOfBoundsRaises := fun r _ s hout =>
  ⟨⟨_, exec_movRegMem_outOfBounds hout r, rfl, fun _ _ => rfl, .refl s⟩,
    ⟨_, exec_movMemReg_outOfBounds hout r, rfl, fun _ _ => rfl, .refl s⟩⟩

end Sys2Proof.Machine
end

section
/-! The whole step (40_step_cycle.md sections 1 to 3): the fetches at an offset `n`, the step of a running core as the
run of what it fetched, and for each instruction its faults in order. A rule per operand kind says where a step ends
when that operand's fetch fails, and that it goes on with the rest of the step when it does not. -/

namespace Sys2Proof.Machine

/-! ## The fetches at an offset -/

section
variable {s : State} {n : Nat}

/-- Everything `Fetch8` at the offset `n` can do. -/
theorem State.fetch8_atPc (hn : n ≤ 0xFFFF) :
    (s.atPc n).fetch8 =
      if s.mem.len ≤ n then .error ((s.atPc n).raise (.memOutOfBounds (BitVec.ofNat 16 n)))
      else if n = 0xFFFF then .error ((s.atPc n).raise (.ipOverflow (BitVec.ofNat 16 n)))
      else .ok (s.mem.byteAt n, s.atPc (n + 1)) := by
  have htop : n + 1 > 0xFFFF ↔ n = 0xFFFF := by omega
  rw [State.fetch8_eq, State.atPc_pc_toNat s hn, State.atPc_pc]
  simp only [htop, State.atPc_mem, State.atPc_atPc]

/-- Everything `Fetch16` at the offset `n` can do. -/
theorem State.fetch16_atPc (hn : n ≤ 0xFFFF) :
    (s.atPc n).fetch16 =
      if s.mem.len < n + 2 then .error ((s.atPc n).raise (.memOutOfBounds (BitVec.ofNat 16 n)))
      else if 0xFFFE ≤ n then .error ((s.atPc n).raise (.ipOverflow (BitVec.ofNat 16 n)))
      else .ok (joinBytes (s.mem.byteAt n) (s.mem.byteAt (n + 1)), s.atPc (n + 2)) := by
  have htop : n + 2 > 0xFFFF ↔ 0xFFFE ≤ n := by omega
  rw [State.fetch16_eq, State.atPc_pc_toNat s hn, State.atPc_pc]
  simp only [htop, State.atPc_mem, State.atPc_atPc]

end

/-! ## The step of a running core -/

/-- What a step makes of its fetches: the fault that was raised, or the effect of the instruction (R65). -/
def runFetched : Except State (Instr × State) → Host.Outcome State Fault Refusal
  | .error t => .next t
  | .ok (i, u) => exec i u

theorem stepWith_eq_runFetched (m : OpcodeMap) {s : State} (hrun : s.fault = none) :
    stepWith m s = runFetched (s.fetchInstr m) := by
  rw [stepWith, hrun]
  cases s.fetchInstr m <;> rfl

/-- Settles O19: the latch is looked at before anything else. -/
theorem haltedCoreTakesNoStep : Obligations.HaltedCoreTakesNoStep := by
  intro m s f hf
  rw [stepWith, hf]

/-- Settles O20: a fault of a fetch is a next state, and so is the end of every effect. -/
theorem runningCoreAlwaysSteps : Obligations.RunningCoreAlwaysSteps := by
  intro m s hrun
  rw [stepWith_eq_runFetched m hrun]
  cases s.fetchInstr m with
  | error t => exact ⟨t, rfl⟩
  | ok fetched => exact exec_is_next fetched.1 fetched.2

section
variable {m : OpcodeMap} {s : State}

/-- A fault of the opcode fetch ends the step. -/
theorem stepWith_of_fetch8_error {t : State} (hrun : s.fault = none) (hfetch : s.fetch8 = .error t) :
    stepWith m s = .next t := by
  have herror : s.fetchInstr m = .error t := by
    rw [State.fetchInstr, ByteSource.decode, pcSource_fetch8, hfetch, except_error_bind]
  rw [stepWith_eq_runFetched m hrun, herror, runFetched]

theorem State.fetch8_opcode (hin : s.pc.toNat < s.mem.len) (hroom : s.pc.toNat < 0xFFFF) :
    s.fetch8 = .ok (s.codeByte 0, s.atPc (s.pc.toNat + 1)) := by
  rw [State.fetch8_eq, if_neg (by omega), if_neg (by omega)]
  rfl

/-- After the opcode fetch and lookup, a step is the run of the operand fetches (R69, R70). -/
theorem stepWith_eq_runFetched_operands (hm : m.admissible = true) (hrun : s.fault = none)
    (hin : s.pc.toNat < s.mem.len) (hroom : s.pc.toNat < 0xFFFF) (o : Opcode) (hop : s.codeByte 0 = m.byteOf o) :
    stepWith m s = runFetched (pcSource.fetchOperands o (s.atPc (s.pc.toNat + 1))) := by
  have hlookup : m.lookup (s.codeByte 0) = some o := by rw [hop, OpcodeMap.lookup_byteOf hm]
  have hdecode : s.fetchInstr m = pcSource.fetchOperands o (s.atPc (s.pc.toNat + 1)) :=
    ByteSource.decode_of_lookup pcSource (State.fetch8_opcode hin hroom) hlookup
  rw [stepWith_eq_runFetched m hrun, hdecode]

end

/-- Settles O21: two faults of `Fetch8` at IP, and the failing lookup after it. -/
theorem opcodeFetchFaults : Obligations.OpcodeFetchFaults := by
  intro m s hrun
  refine ⟨fun hout => ?outOfBounds, fun hin htop => ?overflow, fun hin hroom hunknown => ?unknown⟩
  case outOfBounds =>
    have hfetch : s.fetch8 = .error (s.raise (.memOutOfBounds s.pc)) := by rw [State.fetch8_eq, if_pos hout]
    rw [stepWith_of_fetch8_error hrun hfetch, State.raisesAt, State.atPc_self]
  case overflow =>
    have hfetch : s.fetch8 = .error (s.raise (.ipOverflow s.pc)) := by
      rw [State.fetch8_eq, if_neg (by omega), if_pos (by omega)]
    rw [stepWith_of_fetch8_error hrun hfetch, State.raisesAt, State.atPc_self]
  case unknown =>
    have hdecode : s.fetchInstr m = .error ((s.atPc (s.pc.toNat + 1)).raise (.unknownOpcode (s.codeByte 0))) :=
      ByteSource.decode_of_unknown pcSource (State.fetch8_opcode hin hroom) hunknown
    rw [stepWith_eq_runFetched m hrun, hdecode, runFetched, State.raisesAt]

/-! ## One rule per operand kind -/

section
variable {s : State} {n : Nat} {o : Host.Outcome State Fault Refusal}

/-- A register operand at the offset `n` (R68): the byte may be out of bounds, IP may have nowhere to go, the byte may
name no register; otherwise the step goes on. -/
theorem runFetched_fetchReg {f : Reg × State → Except State (Instr × State)} {b : Byte} (hn : n ≤ 0xFFFF)
    (hb : s.mem.byteAt n = b)
    (hnone : Reg.ofByte b = none → s.raisesAt (n + 1) (.unknownRegister b) = o)
    (hsome : ∀ r, Reg.ofByte b = some r → n + 1 ≤ 0xFFFF → runFetched (f (r, s.atPc (n + 1))) = o) :
    runFetched (pcSource.fetchReg (s.atPc n) >>= f) =
      if s.mem.len ≤ n then s.raisesAt n (.memOutOfBounds (BitVec.ofNat 16 n))
      else if n = 0xFFFF then s.raisesAt n (.ipOverflow 0xFFFF)
      else o := by
  have hfetch := State.fetch8_atPc (s := s) hn
  split_ifs with hout htop
  · rw [if_pos hout] at hfetch
    rw [ByteSource.fetchReg, pcSource_fetch8, hfetch]
    rfl
  · rw [if_neg hout, if_pos htop] at hfetch
    rw [ByteSource.fetchReg, pcSource_fetch8, hfetch, htop]
    rfl
  · rw [if_neg hout, if_neg htop, hb] at hfetch
    cases hr : Reg.ofByte b with
    | none =>
      rw [ByteSource.fetchReg_of_none pcSource hfetch hr]
      exact hnone hr
    | some r =>
      rw [ByteSource.fetchReg_of_some pcSource hfetch hr]
      exact hsome r hr (by omega)

/-- A 16-bit operand at the offset `n` (R67): the word may be out of bounds, IP may have nowhere to go; otherwise the
step goes on. A block holds at most 65536 bytes, so that only a word at `0xFFFE` leaves IP nowhere to go. -/
theorem runFetched_fetch16 {f : Word × State → Except State (Instr × State)} {w : Word} (hmem : s.mem.wf)
    (hn : n ≤ 0xFFFF) (hw : joinBytes (s.mem.byteAt n) (s.mem.byteAt (n + 1)) = w)
    (hok : n + 2 ≤ 0xFFFF → runFetched (f (w, s.atPc (n + 2))) = o) :
    runFetched (pcSource.fetch16 (s.atPc n) >>= f) =
      if s.mem.len < n + 2 then s.raisesAt n (.memOutOfBounds (BitVec.ofNat 16 n))
      else if n = 0xFFFE then s.raisesAt n (.ipOverflow 0xFFFE)
      else o := by
  have hlen := hmem.len_le
  rw [pcSource_fetch16, State.fetch16_atPc hn, hw]
  split_ifs with hout htop hne hne
  · rfl
  · rw [hne]; rfl
  · omega
  · omega
  · exact hok (by omega)

end

/-! ## The six instructions -/

/-- Settles O22: a word, a register, and the effect. -/
theorem movLitRegWholeStep : Obligations.MovLitRegWholeStep := by
  intro m s hm hmem hrun hin hroom hop
  rw [stepWith_eq_runFetched_operands hm hrun hin hroom .movLitReg hop]
  refine runFetched_fetch16 (w := s.codeWord 1) hmem hroom rfl fun hlit => ?_
  refine runFetched_fetchReg (b := s.codeByte 3) hlit rfl (fun hnone => ?_) (fun dst hdst _ => ?_)
  · rw [hnone]
  · rw [hdst]; rfl

/-- Settles O23: two registers, and the effect. -/
theorem movRegRegWholeStep : Obligations.MovRegRegWholeStep := by
  intro m s hm hmem hrun hin hroom hop
  rw [stepWith_eq_runFetched_operands hm hrun hin hroom .movRegReg hop]
  refine runFetched_fetchReg (b := s.codeByte 1) hroom rfl (fun hnone => ?_) (fun src hsrc hnext => ?_)
  · rw [hnone]
  rw [hsrc]
  refine runFetched_fetchReg (b := s.codeByte 2) hnext rfl (fun hnone => ?_) (fun dst hdst _ => ?_)
  · rw [hnone]
  · rw [hdst]; rfl

/-- Settles O24: a register, a word, and the store at its bounds. -/
theorem movRegMemWholeStep : Obligations.MovRegMemWholeStep := by
  intro m s hm hmem hrun hin hroom hop
  rw [stepWith_eq_runFetched_operands hm hrun hin hroom .movRegMem hop]
  refine runFetched_fetchReg (b := s.codeByte 1) hroom rfl (fun hnone => ?_) (fun src hsrc hnext => ?_)
  · rw [hnone]
  rw [hsrc]
  refine runFetched_fetch16 (w := s.codeWord 2) hmem hnext rfl fun _ => ?_
  show exec (.movRegMem src (s.codeWord 2)) (s.atPc (s.pc.toNat + 4)) = _
  split_ifs with hout
  · exact exec_movRegMem_outOfBounds (s := s.atPc _) hout src
  · have hstore : (s.codeWord 2).toNat + 2 ≤ s.mem.len := Nat.le_of_not_lt hout
    rw [exec_movRegMem (s := s.atPc _) hstore, State.atPc_mem, Memory.writeU16_eq hstore]

/-- Settles O25: a word, a register, and the load at its bounds. -/
theorem movMemRegWholeStep : Obligations.MovMemRegWholeStep := by
  intro m s hm hmem hrun hin hroom hop
  rw [stepWith_eq_runFetched_operands hm hrun hin hroom .movMemReg hop]
  refine runFetched_fetch16 (w := s.codeWord 1) hmem hroom rfl fun hnext => ?_
  refine runFetched_fetchReg (b := s.codeByte 3) hnext rfl (fun hnone => ?_) (fun dst hdst _ => ?_)
  · rw [hnone]
  rw [hdst]
  show exec (.movMemReg (s.codeWord 1) dst) (s.atPc (s.pc.toNat + 4)) = ite _ _ _
  split_ifs with hout
  · exact exec_movMemReg_outOfBounds (s := s.atPc _) hout dst
  · exact exec_movMemReg (s := s.atPc _) (Nat.le_of_not_lt hout) dst

/-- Settles O26: two registers, and the effect; `addWrap` narrows the sum as the remainder does. -/
theorem addRegRegWholeStep : Obligations.AddRegRegWholeStep := by
  intro m s hm hmem hrun hin hroom hop
  rw [stepWith_eq_runFetched_operands hm hrun hin hroom .addRegReg hop]
  refine runFetched_fetchReg (b := s.codeByte 1) hroom rfl (fun hnone => ?_) (fun a ha hnext => ?_)
  · rw [hnone]
  rw [ha]
  refine runFetched_fetchReg (b := s.codeByte 2) hnext rfl (fun hnone => ?_) (fun b hb _ => ?_)
  · rw [hnone]
  have hmod : ∀ k, BitVec.ofNat 16 (k % 65536) = BitVec.ofNat 16 k := fun k => by
    apply BitVec.eq_of_toNat_eq; simp
  rw [hb]
  simp only [hmod]
  rfl

/-- Settles O27: two words, whether or not the jump is taken, and the effect. -/
theorem jmpNotEqWholeStep : Obligations.JmpNotEqWholeStep := by
  intro m s hm hmem hrun hin hroom hop
  rw [stepWith_eq_runFetched_operands hm hrun hin hroom .jmpNotEq hop]
  refine runFetched_fetch16 (w := s.codeWord 1) hmem hroom rfl fun hlit => ?_
  refine runFetched_fetch16 (w := s.codeWord 3) hmem hlit rfl fun _ => ?_
  show exec (.jmpNotEq (s.codeWord 1) (s.codeWord 3)) (s.atPc (s.pc.toNat + 5)) = _
  split_ifs with heq
  · exact exec_jmpNotEq_notTaken heq
  · exact exec_jmpNotEq_taken heq

end Sys2Proof.Machine
end

section
/-! The fetches of a step against the decoder on the bytes at IP. Both are the one decoder, over main memory and over
the list `State.codeAtPc`; `FetchesAgree` relates what the two have done so far, is kept by every fetch and by
sequencing, and so holds of the whole decode. The three cases of `State.fetchInstr` are read off it. -/

namespace Sys2Proof.Machine

/-! ## The bytes at IP -/

/-- The bytes of main memory from `k` bytes past IP on, up to the five of `State.codeAtPc`. -/
def State.codeFrom (s : State) (k : Nat) : List Byte := s.mem.window (s.pc.toNat + k) (5 - k)

theorem State.codeFrom_zero (s : State) : s.codeFrom 0 = s.codeAtPc := rfl

theorem Memory.window_succ {m : Memory} {off : Nat} (h : off < m.len) (n : Nat) :
    m.window off (n + 1) = m.byteAt off :: m.window (off + 1) n := by
  have hcount : min (n + 1) (m.len - off) = min n (m.len - (off + 1)) + 1 := by omega
  rw [Memory.window, hcount, List.range_succ_eq_map, List.map_cons, List.map_map, Memory.window]
  refine congrArg₂ _ rfl (List.map_congr_left fun k _ => ?_)
  rw [Function.comp_apply, Nat.succ_eq_add_one, Nat.add_assoc, Nat.add_comm 1 k]

theorem Memory.window_eq_nil {m : Memory} {off : Nat} (h : m.len ≤ off) (n : Nat) : m.window off n = [] := by
  rw [Memory.window, Nat.sub_eq_zero_of_le h, Nat.min_zero, List.range_zero, List.map_nil]

section
variable {s : State} {k : Nat}

theorem State.codeFrom_of_lt (hk : k ≤ 4) (h : s.pc.toNat + k < s.mem.len) :
    s.codeFrom k = s.codeByte k :: s.codeFrom (k + 1) := by
  have hcount : 5 - k = (5 - (k + 1)) + 1 := by omega
  rw [State.codeFrom, hcount, Memory.window_succ h]
  rfl

theorem State.codeFrom_of_le (h : s.mem.len ≤ s.pc.toNat + k) : s.codeFrom k = [] :=
  Memory.window_eq_nil h _

end

/-! ## Two decodes that agree -/

/-- A fetch from the bytes at IP and the same fetch from main memory. `len a` is how far past IP the cursor stands once
`a` has been fetched. Either both have fetched `a`; or both stop, main memory with a fault whose cause is true; or main
memory stops because IP has nowhere to go, which the list does not see. -/
inductive FetchesAgree (m : OpcodeMap) (s : State) {α : Type} (len : α → Nat) :
    Except DecodeError (α × List Byte) → Except State (α × State) → Prop
  | fetched (a : α) (hroom : s.pc.toNat + len a ≤ 0xFFFF) :
    FetchesAgree m s len (.ok (a, s.codeFrom (len a))) (.ok (a, s.atPc (s.pc.toNat + len a)))
  | stopped (e : DecodeError) (k : Nat) (f : FaultRecord) (hk : k ≤ 4) (hroom : s.pc.toNat + k ≤ 0xFFFF)
    (hcause : ((s.atPc (s.pc.toNat + k)).raise f).latchJustified m) :
    FetchesAgree m s len (.error e) (.error ((s.atPc (s.pc.toNat + k)).raise f))
  | overflowed (x : Except DecodeError (α × List Byte)) (k : Nat) (hk : k ≤ 4) (hroom : s.pc.toNat + k ≤ 0xFFFF)
    (htop : 0xFFFE ≤ s.pc.toNat + k) (hlen : 65536 ≤ s.mem.len)
    (hpast : ∀ a rest, x = .ok (a, rest) → 0xFFFF < s.pc.toNat + len a) :
    FetchesAgree m s len x
      (.error ((s.atPc (s.pc.toNat + k)).raise (.ipOverflow (BitVec.ofNat 16 (s.pc.toNat + k)))))

section
variable {m : OpcodeMap} {s : State} {k : Nat}

theorem ofNat_toNat_of_le {n : Nat} (hn : n ≤ 0xFFFF) : (BitVec.ofNat 16 n).toNat = n := by
  rw [BitVec.toNat_ofNat]; omega

/-- The fault of a fetch out of bounds has its cause: not even two bytes are left. -/
theorem latchJustified_outOfBounds (t : State) {n : Nat} (hn : n ≤ 0xFFFF) (hout : t.mem.len < n + 2) :
    (t.raise (.memOutOfBounds (BitVec.ofNat 16 n))).latchJustified m := by
  show t.mem.len < (BitVec.ofNat 16 n).toNat + 2
  rwa [ofNat_toNat_of_le hn]

theorem FetchesAgree.fetch8 (hk : k ≤ 4) (hroom : s.pc.toNat + k ≤ 0xFFFF) :
    FetchesAgree m s (fun _ => k + 1) (listSource.fetch8 (s.codeFrom k))
      (pcSource.fetch8 (s.atPc (s.pc.toNat + k))) := by
  rw [pcSource_fetch8, State.fetch8_atPc hroom]
  split_ifs with hout htop
  · rw [State.codeFrom_of_le hout]
    exact .stopped _ k _ hk hroom (latchJustified_outOfBounds _ hroom (by rw [State.atPc_mem]; omega))
  · exact .overflowed _ k hk hroom (by omega) (by omega) fun _ _ _ => by omega
  · rw [State.codeFrom_of_lt hk (by omega)]
    exact .fetched (len := fun _ => k + 1) (s.codeByte k) (by omega)

theorem FetchesAgree.fetch16 (hk : k ≤ 3) (hroom : s.pc.toNat + k ≤ 0xFFFF) :
    FetchesAgree m s (fun _ => k + 2) (listSource.fetch16 (s.codeFrom k))
      (pcSource.fetch16 (s.atPc (s.pc.toNat + k))) := by
  have hk4 : k ≤ 4 := by omega
  rw [pcSource_fetch16, State.fetch16_atPc hroom]
  split_ifs with hout htop
  · have htruncated : listSource.fetch16 (s.codeFrom k) = .error .truncated := by
      rcases Nat.lt_or_ge (s.pc.toNat + k) s.mem.len with hin | hnone
      · rw [State.codeFrom_of_lt hk4 hin, State.codeFrom_of_le (k := k + 1) (by omega)]
        rfl
      · rw [State.codeFrom_of_le hnone]
        rfl
    rw [htruncated]
    exact .stopped _ k _ hk4 hroom (latchJustified_outOfBounds _ hroom hout)
  · exact .overflowed _ k hk4 hroom htop (by omega) fun _ _ _ => by omega
  · rw [State.codeFrom_of_lt hk4 (by omega), State.codeFrom_of_lt (k := k + 1) (by omega) (by omega)]
    exact .fetched (len := fun _ => k + 2) (s.codeWord k) (by omega)

section
variable {α β : Type} {len : β → Nat} {x : Except DecodeError (α × List Byte)} {y : Except State (α × State)}

/-- Fetches in sequence agree when the first do and what follows does from the cursors they leave. -/
theorem FetchesAgree.bind {f : α × List Byte → Except DecodeError (β × List Byte)}
    {g : α × State → Except State (β × State)} (hlen : ∀ b, k ≤ len b) (hxy : FetchesAgree m s (fun _ => k) x y)
    (hfg : ∀ a, s.pc.toNat + k ≤ 0xFFFF →
      FetchesAgree m s len (f (a, s.codeFrom k)) (g (a, s.atPc (s.pc.toNat + k)))) :
    FetchesAgree m s len (x >>= f) (y >>= g) := by
  cases hxy with
  | fetched a hroom => exact hfg a hroom
  | stopped e j fault hj hroom hcause => exact .stopped e j fault hj hroom hcause
  | overflowed x j hj hroom htop hmem hpast =>
    refine .overflowed _ j hj hroom htop hmem fun b rest hb => ?_
    obtain ⟨⟨a, mid⟩, ha, -⟩ := except_bind_eq_ok.mp hb
    exact Nat.lt_of_lt_of_le (hpast a mid ha) (Nat.add_le_add_left (hlen b) _)

/-- The last fetch, from which the result is built. -/
theorem FetchesAgree.last {build : α → β} (hlen : ∀ a, len (build a) = k) (hxy : FetchesAgree m s (fun _ => k) x y) :
    FetchesAgree m s len (x >>= fun p => .ok (build p.1, p.2)) (y >>= fun p => .ok (build p.1, p.2)) := by
  cases hxy with
  | fetched a hroom =>
    have hbuilt := FetchesAgree.fetched (m := m) (s := s) (len := len) (build a) (by rwa [hlen])
    rwa [hlen] at hbuilt
  | stopped e j fault hj hroom hcause => exact .stopped e j fault hj hroom hcause
  | overflowed x j hj hroom htop hmem hpast =>
    refine .overflowed _ j hj hroom htop hmem fun b rest hb => ?_
    obtain ⟨⟨a, mid⟩, ha, hbuild⟩ := except_bind_eq_ok.mp hb
    cases hbuild
    rw [hlen]
    exact hpast a mid ha

end

theorem FetchesAgree.fetchReg (hk : k ≤ 3) (hroom : s.pc.toNat + k ≤ 0xFFFF) :
    FetchesAgree m s (fun _ => k + 1) (listSource.fetchReg (s.codeFrom k))
      (pcSource.fetchReg (s.atPc (s.pc.toNat + k))) := by
  refine FetchesAgree.bind (fun _ => Nat.le_refl (k + 1)) (.fetch8 (by omega) hroom) fun b hnext => ?_
  cases hr : Reg.ofByte b with
  | none =>
    have hcause : ((s.atPc (s.pc.toNat + (k + 1))).raise (.unknownRegister b)).latchJustified m :=
      Reg.ofByte_eq_none.mp hr
    simpa [hr] using .stopped _ (k + 1) _ (by omega) hnext hcause
  | some r => simpa [hr] using .fetched (len := fun _ => k + 1) r hnext

/-- The operands of each opcode, fetched from the byte after the opcode on (R53). -/
theorem FetchesAgree.fetchOperands (o : Opcode) (hroom : s.pc.toNat + 1 ≤ 0xFFFF) :
    FetchesAgree m s Instr.length (listSource.fetchOperands o (s.codeFrom 1))
      (pcSource.fetchOperands o (s.atPc (s.pc.toNat + 1))) := by
  have hfirst : ∀ {j : Nat}, j ≤ 3 → ∀ i : Instr, j ≤ i.length := fun hj i => hj.trans i.le_length
  cases o with
  | movLitReg =>
    exact .bind (hfirst (by decide)) (.fetch16 (by decide) hroom) fun lit hlit =>
      .last (build := Instr.movLitReg lit) (fun _ => rfl) (.fetchReg (by decide) hlit)
  | movRegReg =>
    exact .bind (hfirst (by decide)) (.fetchReg (by decide) hroom) fun src hsrc =>
      .last (build := Instr.movRegReg src) (fun _ => rfl) (.fetchReg (by decide) hsrc)
  | movRegMem =>
    exact .bind (hfirst (by decide)) (.fetchReg (by decide) hroom) fun src hsrc =>
      .last (build := Instr.movRegMem src) (fun _ => rfl) (.fetch16 (by decide) hsrc)
  | movMemReg =>
    exact .bind (hfirst (by decide)) (.fetch16 (by decide) hroom) fun addr haddr =>
      .last (build := Instr.movMemReg addr) (fun _ => rfl) (.fetchReg (by decide) haddr)
  | addRegReg =>
    exact .bind (hfirst (by decide)) (.fetchReg (by decide) hroom) fun a ha =>
      .last (build := Instr.addRegReg a) (fun _ => rfl) (.fetchReg (by decide) ha)
  | jmpNotEq =>
    exact .bind (hfirst (by decide)) (.fetch16 (by decide) hroom) fun lit hlit =>
      .last (build := Instr.jmpNotEq lit) (fun _ => rfl) (.fetch16 (by decide) hlit)

end

/-- The whole decode from the bytes at IP agrees with the fetches of a step. -/
theorem fetchesAgree_fetchInstr (m : OpcodeMap) (s : State) :
    FetchesAgree m s Instr.length (decodeWith m s.codeAtPc) (s.fetchInstr m) := by
  have hpc : s.pc.toNat + 0 ≤ 0xFFFF := Nat.le_of_lt_succ s.pc.isLt
  have hopcode : FetchesAgree m s (fun _ => 0 + 1) (listSource.fetch8 s.codeAtPc) (pcSource.fetch8 s) := by
    simpa [State.codeFrom_zero] using FetchesAgree.fetch8 (m := m) (s := s) (Nat.zero_le 4) hpc
  refine FetchesAgree.bind (fun i => le_trans (by decide) i.le_length) hopcode fun op hnext => ?_
  cases ho : m.lookup op with
  | none =>
    have hcause : ((s.atPc (s.pc.toNat + 1)).raise (.unknownOpcode op)).latchJustified m := ho
    simpa [ho] using .stopped _ 1 _ (by decide) hnext hcause
  | some o => simpa [ho] using FetchesAgree.fetchOperands o hnext

/-! ## What the fetches of a step do -/

section
variable {m : OpcodeMap} {s : State} {i : Instr}

/-- Fetches that succeed have fetched what the bytes at IP decode to, and left IP past it. -/
theorem State.fetchInstr_ok {u : State} (h : s.fetchInstr m = .ok (i, u)) :
    (∃ rest, decodeWith m s.codeAtPc = .ok (i, rest)) ∧ s.pc.toNat + i.length ≤ 0xFFFF ∧
      u = s.atPc (s.pc.toNat + i.length) := by
  have hagree := fetchesAgree_fetchInstr m s
  rw [h] at hagree
  generalize decodeWith m s.codeAtPc = decoded at hagree
  cases hagree with
  | fetched _ hroom => exact ⟨⟨_, rfl⟩, hroom, rfl⟩

/-- Fetches that fail have raised one fault, whose cause is true, with IP at most four bytes further. -/
theorem State.fetchInstr_error {t : State} (h : s.fetchInstr m = .error t) :
    ∃ k f, k ≤ 4 ∧ s.pc.toNat + k ≤ 0xFFFF ∧ t = (s.atPc (s.pc.toNat + k)).raise f ∧
      (s.mem.wf → t.latchJustified m) := by
  have hagree := fetchesAgree_fetchInstr m s
  rw [h] at hagree
  generalize decodeWith m s.codeAtPc = decoded at hagree
  cases hagree with
  | stopped e k f hk hroom hcause => exact ⟨k, f, hk, hroom, rfl, fun _ => hcause⟩
  | overflowed x k hk hroom htop hlen hpast =>
    refine ⟨k, _, hk, hroom, rfl, fun hmem => ⟨rfl, ?_, Nat.le_antisymm hmem.len_le hlen⟩⟩
    rwa [ofNat_toNat_of_le hroom]

/-- Bytes at IP that decode are fetched, unless the instruction reaches past `0xFFFF`; then IP overflows (D4). -/
theorem State.fetchInstr_of_decode {rest : List Byte} (h : decodeWith m s.codeAtPc = .ok (i, rest)) :
    (s.pc.toNat + i.length ≤ 0xFFFF ∧ s.fetchInstr m = .ok (i, s.atPc (s.pc.toNat + i.length))) ∨
    (0xFFFF < s.pc.toNat + i.length ∧ ∃ n, 0xFFFE ≤ n ∧ n ≤ 0xFFFF ∧
      s.fetchInstr m = .error ((s.atPc n).raise (.ipOverflow (BitVec.ofNat 16 n)))) := by
  have hagree := fetchesAgree_fetchInstr m s
  rw [h] at hagree
  generalize s.fetchInstr m = fetched at hagree
  cases hagree with
  | fetched _ hroom => exact .inl ⟨hroom, rfl⟩
  | overflowed _ k hk hroom htop hlen hpast => exact .inr ⟨hpast i rest rfl, _, htop, hroom, rfl⟩

theorem stepWith_of_decode {rest : List Byte} (hrun : s.fault = none) (h : decodeWith m s.codeAtPc = .ok (i, rest))
    (hroom : s.pc.toNat + i.length ≤ 0xFFFF) : stepWith m s = exec i (s.atPc (s.pc.toNat + i.length)) := by
  rcases State.fetchInstr_of_decode h with ⟨-, hfetch⟩ | ⟨hpast, -⟩
  · rw [stepWith_eq_runFetched m hrun, hfetch, runFetched]
  · omega

end

/-- Settles O18, for any map, and so for the decided one. -/
theorem stepRunsDecodedInstruction : Obligations.StepRunsDecodedInstruction :=
  ⟨fun _ _ _ _ hrun hdecode hroom => stepWith_of_decode hrun hdecode hroom,
    fun _ _ _ hrun hdecode hroom => stepWith_of_decode hrun hdecode hroom⟩

/-- Settles O11: IP is zero after reset, so the opcode fetch and the decode are those at offset 0. -/
theorem entryPointIsOffsetZero : Obligations.EntryPointIsOffsetZero := by
  intro m mem
  constructor
  · intro hempty
    have hout : (resetWith mem).mem.len ≤ (resetWith mem).pc.toNat := by simp [hempty]
    exact (opcodeFetchFaults m (resetWith mem) rfl).1 hout
  · intro i rest hdecode
    have hpc : (resetWith mem).pc.toNat = 0 := rfl
    have hlen := i.length_le
    have hstep := stepWith_of_decode (resetWith_fault mem) hdecode (by omega)
    rwa [hpc, Nat.zero_add] at hstep

/-- Settles O46: an instruction that ends at `0xFFFF` reaches past it, so its fetches overflow. -/
theorem instructionCannotEndAtTopOfMemory : Obligations.InstructionCannotEndAtTopOfMemory := by
  intro m s i rest hrun hdecode hend
  rcases State.fetchInstr_of_decode hdecode with ⟨hroom, -⟩ | ⟨-, n, htop, hn, hfetch⟩
  · omega
  · refine ⟨(s.atPc n).raise (.ipOverflow (BitVec.ofNat 16 n)), BitVec.ofNat 16 n, ?step, rfl, rfl, ?top⟩
    case step => rw [stepWith_eq_runFetched m hrun, hfetch, runFetched]
    case top => rwa [ofNat_toNat_of_le hn]

/-- Settles O45: the opcode fetch at the target is out of bounds. -/
theorem jumpTargetIsTestedAtNextFetch : Obligations.JumpTargetIsTestedAtNextFetch := by
  intro m lit addr s hrun htaken hout
  refine ⟨s.setPc addr, exec_jmpNotEq_taken htaken, hrun, ?next, rfl⟩
  case next =>
    have hstep := (opcodeFetchFaults m (s.setPc addr) hrun).1 hout
    rwa [State.raisesAt, State.atPc_self, State.setPc_pc] at hstep

end Sys2Proof.Machine
end

section
/-! What every step keeps and what a step may change (40_step_cycle.md R71, 60_exceptions.md section 4).
`stepWith_cases` says once what a step can do: raise on the way, or run the decoded instruction's effect past its
bytes. -/

namespace Sys2Proof.Machine

/-! ## What any step can do -/

section
variable {m : OpcodeMap} {s t : State}

/-- Everything a step that answers a next state has done: a fetch has raised a fault whose cause is true, with IP at
most four bytes further; or the effect of the instruction the bytes at IP decode to has run with IP past them. -/
theorem stepWith_cases (h : stepWith m s = .next t) :
    s.fault = none ∧
    ((∃ k f, k ≤ 4 ∧ s.pc.toNat + k ≤ 0xFFFF ∧ t = (s.atPc (s.pc.toNat + k)).raise f ∧
        (s.mem.wf → t.latchJustified m)) ∨
      ∃ i rest, decodeWith m s.codeAtPc = .ok (i, rest) ∧ s.pc.toNat + i.length ≤ 0xFFFF ∧
        exec i (s.atPc (s.pc.toNat + i.length)) = .next t) := by
  obtain ⟨hrun, herror | ⟨i, u, hfetch, hexec⟩⟩ := stepWith_next h
  · exact ⟨hrun, .inl (State.fetchInstr_error herror)⟩
  · obtain ⟨⟨rest, hdecode⟩, hroom, rfl⟩ := State.fetchInstr_ok hfetch
    exact ⟨hrun, .inr ⟨i, rest, hdecode, hroom, hexec⟩⟩

/-- A completed step has run an effect. -/
theorem completed_step (h : stepWith m s = .next t) (ht : t.fault = none) :
    ∃ i rest, decodeWith m s.codeAtPc = .ok (i, rest) ∧ s.pc.toNat + i.length ≤ 0xFFFF ∧
      exec i (s.atPc (s.pc.toNat + i.length)) = .next t := by
  obtain ⟨-, ⟨k, f, -, -, rfl, -⟩ | hexec⟩ := stepWith_cases h
  · cases ht
  · exact hexec

/-- A completed step has run the effect of the instruction decoded. -/
theorem completed_step_of_decode {i : Instr} {rest : List Byte} (hdecode : decodeWith m s.codeAtPc = .ok (i, rest))
    (h : stepWith m s = .next t) (ht : t.fault = none) :
    s.pc.toNat + i.length ≤ 0xFFFF ∧ exec i (s.atPc (s.pc.toNat + i.length)) = .next t := by
  obtain ⟨j, others, hj, hroom, hexec⟩ := completed_step h ht
  obtain ⟨rfl, -⟩ : i = j ∧ rest = others := by simpa [hdecode] using hj
  exact ⟨hroom, hexec⟩

/-! ## The invariants -/

/-- A step leaves main memory alone or writes one word through the port. -/
theorem stepWith_mem (h : stepWith m s = .next t) :
    t.mem = s.mem ∨ ∃ off v, t.mem = (s.mem.writeU16 off v).2 := by
  obtain ⟨-, ⟨k, f, -, -, rfl, -⟩ | ⟨i, rest, -, -, hexec⟩⟩ := stepWith_cases h
  · exact .inl rfl
  · rcases exec_cases hexec with ⟨r, v, -, rfl⟩ | ⟨src, addr, -, -, rfl⟩ | ⟨addr, -, -, rfl⟩
    · exact .inl rfl
    · exact .inr ⟨_, _, rfl⟩
    · exact .inl rfl

theorem stepWith_keeps_wf (hmem : s.mem.wf) (h : stepWith m s = .next t) : t.mem.wf ∧ t.mem.len = s.mem.len := by
  rcases stepWith_mem h with hsame | ⟨off, v, hwrite⟩
  · rw [hsame]; exact ⟨hmem, rfl⟩
  · rw [hwrite]; exact ⟨Memory.wf_writeU16 hmem off v, Memory.writeU16_len _ off v⟩

theorem State.latchJustified_of_running (hrun : s.fault = none) : s.latchJustified m := by
  simp [State.latchJustified, hrun]

theorem stepWith_latchJustified (hmem : s.mem.wf) (h : stepWith m s = .next t) : t.latchJustified m := by
  obtain ⟨hrun, ⟨k, f, -, -, -, hcause⟩ | ⟨i, rest, -, -, hexec⟩⟩ := stepWith_cases h
  · exact hcause hmem
  · rcases exec_cases hexec with ⟨r, v, -, rfl⟩ | ⟨src, addr, -, -, rfl⟩ | ⟨addr, -, hout, rfl⟩
    · exact State.latchJustified_of_running hrun
    · exact State.latchJustified_of_running hrun
    · exact hout

end

/-- Settles O35: a step writes memory through the port or not at all. -/
theorem stepKeepsMemoryBlock : Obligations.StepKeepsMemoryBlock :=
  ⟨fun _ _ _ => stepWith_keeps_wf, fun _ _ => stepWith_keeps_wf⟩

/-- Settles O36: a fetch latches a fault with its cause, an effect only the one of a data access out of bounds. -/
theorem stepKeepsLatchJustified : Obligations.StepKeepsLatchJustified :=
  fun _ _ _ hmem _ h => stepWith_latchJustified hmem h

/-! ## A step that raises -/

/-- A step that raises does so at a fetch or at a data access, with IP at most four bytes further; nothing but IP and
the latch has changed. -/
theorem raising_step {m : OpcodeMap} {s t : State} {f : FaultRecord} (h : stepWith m s = .next t)
    (ht : t.fault = some f) :
    ∃ k, k ≤ 4 ∧ s.pc.toNat + k ≤ 0xFFFF ∧ t = (s.atPc (s.pc.toNat + k)).raise f := by
  obtain ⟨hrun, ⟨k, g, hk, hroom, rfl, -⟩ | ⟨i, rest, -, hroom, hexec⟩⟩ := stepWith_cases h
  · cases ht
    exact ⟨k, hk, hroom, rfl⟩
  · have hnone : (s.atPc (s.pc.toNat + i.length)).fault = none := hrun
    rcases exec_cases hexec with ⟨r, v, -, rfl⟩ | ⟨src, addr, -, -, rfl⟩ | ⟨addr, hlen, -, rfl⟩
    · rw [State.writeReg_fault, hnone] at ht
      cases ht
    · rw [State.withMem_fault, hnone] at ht
      cases ht
    · cases ht
      exact ⟨i.length, hlen.le, hroom, rfl⟩

/-- Settles O38: the frame is that of the raising step; the two faults of the opcode fetch are O21's. -/
theorem faultsArePrecise : Obligations.FaultsArePrecise := by
  intro m s t f h ht
  obtain ⟨k, hk, hroom, hraise⟩ := raising_step h ht
  obtain ⟨hrun, -⟩ := stepWith_next h
  have hpc : t.pc.toNat = s.pc.toNat + k := by rw [hraise, State.raise_pc, State.atPc_pc_toNat s hroom]
  obtain ⟨hout, htop, -⟩ := opcodeFetchFaults m s hrun
  have hraisesAt : ∀ g, stepWith m s = s.raisesAt s.pc.toNat g → t.pc = s.pc ∧ f = g := by
    intro g hg
    rw [h, State.raisesAt, State.atPc_self] at hg
    cases hg
    exact ⟨rfl, (Option.some.inj ht).symm⟩
  refine ⟨?regs, ?memory, hrun, by omega, by omega, fun hle => hraisesAt _ (hout hle),
    fun hlt hend => hraisesAt _ (htop hlt hend)⟩
  case regs =>
    intro q hq
    rw [hraise, State.raise_readReg, State.atPc_readReg_ne s (List.ne_of_not_mem_cons hq)]
  case memory =>
    rw [hraise]
    exact .refl s

/-! ## A step that completes -/

/-- Settles O39: the one change is that of the effect of the instruction decoded. -/
theorem completedStepMakesOneChange : Obligations.CompletedStepMakesOneChange := by
  intro m s t h ht
  obtain ⟨i, rest, hdecode, hroom, hexec⟩ := completed_step h ht
  refine ⟨i, rest, hdecode, hroom, ?_⟩
  cases i with
  | movLitReg lit dst => cases hexec; exact ⟨_, rfl⟩
  | movRegReg src dst => cases hexec; exact ⟨_, rfl⟩
  | movRegMem src addr =>
    obtain ⟨-, rfl⟩ := exec_movRegMem_completed hexec ht
    exact ⟨fun _ _ => rfl, Memory.writeU16_len _ _ _, fun _ hhigh hlow => Memory.byteAt_writeU16_ne hhigh hlow _⟩
  | movMemReg addr dst =>
    obtain ⟨-, rfl⟩ := exec_movMemReg_completed hexec ht
    exact ⟨_, rfl⟩
  | addRegReg a b => cases hexec; exact ⟨_, rfl⟩
  | jmpNotEq lit addr =>
    by_cases htaken : lit = s.readReg .acc
    · rw [exec_jmpNotEq_notTaken (s := s.atPc _) htaken] at hexec
      cases hexec; exact .inr ⟨htaken, rfl⟩
    · rw [exec_jmpNotEq_taken (s := s.atPc _) htaken] at hexec
      cases hexec; exact .inl ⟨htaken, rfl⟩

/-- A general register that an effect may write is named (10_state.md R21). -/
theorem mem_registersNamed_of_written {i : Instr} {r : Reg} (hip : r ≠ .ip) (hacc : r ≠ .acc)
    (h : registerWritten i = some r) : r ∈ registersNamed i := by
  cases i with
  | movLitReg lit dst => cases h; simp [registersNamed]
  | movRegReg src dst => cases h; simp [registersNamed]
  | movRegMem src addr => cases h
  | movMemReg addr dst => cases h; simp [registersNamed]
  | addRegReg a b => cases h; exact absurd rfl hacc
  | jmpNotEq lit addr => cases h; exact absurd rfl hip

/-- Settles O40: of what a step can do, only an effect's register write changes a register other than IP. -/
theorem generalRegistersChangeOnlyWhenNamed : Obligations.GeneralRegistersChangeOnlyWhenNamed := by
  intro m s t r h hip hacc hchanged
  obtain ⟨-, ⟨k, f, -, -, rfl, -⟩ | ⟨i, rest, hdecode, -, hexec⟩⟩ := stepWith_cases h
  · exact absurd (State.atPc_readReg_ne s hip _) hchanged
  · rcases exec_cases hexec with ⟨q, v, hwritten, rfl⟩ | ⟨src, addr, -, -, rfl⟩ | ⟨addr, -, -, rfl⟩
    · by_cases hrq : r = q
      · subst hrq
        exact ⟨i, rest, hdecode, hwritten, mem_registersNamed_of_written hip hacc hwritten⟩
      · rw [State.readReg_writeReg_ne _ hrq, State.atPc_readReg_ne s hip] at hchanged
        exact absurd rfl hchanged
    · exact absurd (State.atPc_readReg_ne s hip _) hchanged
    · exact absurd (State.atPc_readReg_ne s hip _) hchanged

/-! ## IP -/

/-- An effect that completes without writing IP leaves it where the fetches did. -/
theorem exec_keeps_pc {i : Instr} {s t : State} (h : exec i s = .next t) (hip : registerWritten i ≠ some .ip) :
    t.pc = s.pc := by
  rcases exec_cases h with ⟨r, v, hwritten, rfl⟩ | ⟨src, addr, -, -, rfl⟩ | ⟨addr, -, -, rfl⟩
  · exact State.writeReg_pc_ne s (fun hr => hip (hr ▸ hwritten)) v
  · rfl
  · rfl

/-- Settles O42: an effect that does not write IP keeps it, and a move into IP is a register write. -/
theorem ipAfterCompletedStep : Obligations.IpAfterCompletedStep := by
  intro m s t i rest hdecode h ht
  obtain ⟨hroom, hexec⟩ := completed_step_of_decode hdecode h ht
  refine ⟨?sequential, ?literal, ?register, ?ipToIp, ?load⟩
  case sequential =>
    intro hip
    rw [exec_keeps_pc hexec hip, State.atPc_pc_toNat s hroom]
  case literal =>
    rintro lit rfl
    cases hexec
    exact State.readReg_writeReg_same _ .ip lit
  case register =>
    rintro src rfl hsrc
    cases hexec
    calc State.pc _ = (s.atPc _).readReg src := State.readReg_writeReg_same _ .ip _
      _ = s.readReg src := State.atPc_readReg_ne s hsrc _
  case ipToIp =>
    rintro rfl
    cases hexec
    exact State.atPc_pc_toNat s hroom
  case load =>
    rintro addr rfl
    obtain ⟨-, rfl⟩ := exec_movMemReg_completed hexec ht
    exact State.readReg_writeReg_same _ .ip _

/-- Settles O43: the effect runs with IP past the instruction, and IP is read there. -/
theorem ipAsSourceReadsNextInstruction : Obligations.IpAsSourceReadsNextInstruction := by
  intro m s t i rest hdecode h ht
  obtain ⟨hroom, hexec⟩ := completed_step_of_decode hdecode h ht
  have hnext : ((s.atPc (s.pc.toNat + i.length)).readReg .ip).toNat = s.pc.toNat + i.length :=
    State.atPc_pc_toNat s hroom
  refine ⟨?move, ?store, ?add⟩
  case move =>
    rintro dst rfl
    cases hexec
    rw [State.destination, State.readReg_writeReg_same]
    exact hnext
  case store =>
    rintro addr rfl
    obtain ⟨hin, rfl⟩ := exec_movRegMem_completed hexec ht
    rw [State.withMem_mem, Memory.byteAt_writeU16_high hin, Memory.byteAt_writeU16_low hin, ← joinBytes_toNat,
      joinBytes_hi8_lo8]
    exact hnext
  case add =>
    rintro b hb rfl
    cases hexec
    rw [State.destination, State.readReg_writeReg_same, addWrap_eq_add, BitVec.toNat_add, State.source, State.source,
      hnext, State.atPc_readReg_ne s hb]
    rfl

/-- Settles O44: a store that completes was in bounds, and the word read where it was stored is the word stored. -/
theorem storeIsSeenByNextFetch : Obligations.StoreIsSeenByNextFetch := by
  intro src addr s t _ hexec ht hroom
  obtain ⟨hin, rfl⟩ := exec_movRegMem_completed hexec ht
  rw [State.fetch16_eq, State.setPc_pc, State.setPc_mem, State.withMem_mem, Memory.writeU16_len,
    if_neg (by omega), if_neg (by omega), Memory.byteAt_writeU16_high hin, Memory.byteAt_writeU16_low hin,
    joinBytes_hi8_lo8]
  rfl

end Sys2Proof.Machine
end

section
/-! A register an instruction does not name is not read (10_state.md section 2). Writing such a register before the step
or after it comes to the same: `mapFetched` says so of a fetch, is kept by sequencing, and so holds of all the fetches
of a step; each effect keeps it for the registers it does not name. -/

namespace Sys2Proof.Machine

/-! ## Fetches -/

/-- The same fetch with every state it leaves changed by `φ`: the state of the fault, or the one it goes on at. -/
def mapFetched {α : Type} (φ : State → State) : Except State (α × State) → Except State (α × State)
  | .error t => .error (φ t)
  | .ok (a, u) => .ok (a, φ u)

theorem mapFetched_bind {α β : Type} {φ : State → State} {x y : Except State (α × State)}
    {f : α × State → Except State (β × State)} (hx : y = mapFetched φ x)
    (hf : ∀ a u, f (a, φ u) = mapFetched φ (f (a, u))) : (y >>= f) = mapFetched φ (x >>= f) := by
  subst hx
  cases x with
  | error t => rfl
  | ok fetched => exact hf fetched.1 fetched.2

section
variable {r : Reg} (hr : r ≠ .ip) (v : Word) (s : State)
include hr

theorem atPc_writeReg (n : Nat) : (s.writeReg r v).atPc n = (s.atPc n).writeReg r v :=
  State.writeReg_comm s hr.symm v _

theorem fetch8_writeReg : (s.writeReg r v).fetch8 = mapFetched (·.writeReg r v) s.fetch8 := by
  simp only [State.fetch8_eq, State.writeReg_pc_ne s hr, State.writeReg_mem, atPc_writeReg hr]
  split_ifs <;> rfl

theorem fetch16_writeReg : (s.writeReg r v).fetch16 = mapFetched (·.writeReg r v) s.fetch16 := by
  simp only [State.fetch16_eq, State.writeReg_pc_ne s hr, State.writeReg_mem, atPc_writeReg hr]
  split_ifs <;> rfl

theorem fetchReg_writeReg :
    pcSource.fetchReg (s.writeReg r v) = mapFetched (·.writeReg r v) (pcSource.fetchReg s) := by
  refine mapFetched_bind (fetch8_writeReg hr v s) fun b u => ?_
  cases hb : Reg.ofByte b <;> simp only [hb] <;> rfl

theorem fetchOperands_writeReg (o : Opcode) :
    pcSource.fetchOperands o (s.writeReg r v) = mapFetched (·.writeReg r v) (pcSource.fetchOperands o s) := by
  cases o with
  | movLitReg =>
    exact mapFetched_bind (fetch16_writeReg hr v s) fun _ u =>
      mapFetched_bind (fetchReg_writeReg hr v u) fun _ _ => rfl
  | movRegReg =>
    exact mapFetched_bind (fetchReg_writeReg hr v s) fun _ u =>
      mapFetched_bind (fetchReg_writeReg hr v u) fun _ _ => rfl
  | movRegMem =>
    exact mapFetched_bind (fetchReg_writeReg hr v s) fun _ u =>
      mapFetched_bind (fetch16_writeReg hr v u) fun _ _ => rfl
  | movMemReg =>
    exact mapFetched_bind (fetch16_writeReg hr v s) fun _ u =>
      mapFetched_bind (fetchReg_writeReg hr v u) fun _ _ => rfl
  | addRegReg =>
    exact mapFetched_bind (fetchReg_writeReg hr v s) fun _ u =>
      mapFetched_bind (fetchReg_writeReg hr v u) fun _ _ => rfl
  | jmpNotEq =>
    exact mapFetched_bind (fetch16_writeReg hr v s) fun _ u =>
      mapFetched_bind (fetch16_writeReg hr v u) fun _ _ => rfl

/-- No fetch of a step reads a register other than IP. -/
theorem fetchInstr_writeReg (m : OpcodeMap) :
    (s.writeReg r v).fetchInstr m = mapFetched (·.writeReg r v) (s.fetchInstr m) := by
  refine mapFetched_bind (fetch8_writeReg hr v s) fun op u => ?_
  cases ho : m.lookup op with
  | none => simp only [ho]; rfl
  | some o => simpa only [ho] using fetchOperands_writeReg hr v u o

end

/-! ## Effects -/

/-- An effect reads no general register that its instruction does not name, and leaves it what it was. -/
theorem exec_writeReg {i : Instr} {r : Reg} (hip : r ≠ .ip) (hacc : r ≠ .acc) (hr : r ∉ registersNamed i)
    (v : Word) {s t : State} (h : exec i s = .next t) : exec i (s.writeReg r v) = .next (t.writeReg r v) := by
  cases i with
  | movLitReg lit dst =>
    have hdst : dst ≠ r := fun e => hr (by simp [registersNamed, e])
    cases h
    rw [exec_movLitReg, State.writeReg_comm s hdst]
    rfl
  | movRegReg src dst =>
    have hsrc : src ≠ r := fun e => hr (by simp [registersNamed, e])
    have hdst : dst ≠ r := fun e => hr (by simp [registersNamed, e])
    cases h
    rw [exec_movRegReg, State.readReg_writeReg_ne s hsrc, State.writeReg_comm s hdst]
    rfl
  | movRegMem src addr =>
    have hsrc : src ≠ r := fun e => hr (by simp [registersNamed, e])
    rcases Nat.lt_or_ge s.mem.len (addr.toNat + 2) with hout | hin
    · rw [exec_movRegMem_outOfBounds hout] at h
      cases h
      exact exec_movRegMem_outOfBounds (s := s.writeReg r v) hout src
    · rw [exec_movRegMem hin] at h
      cases h
      rw [exec_movRegMem (s := s.writeReg r v) hin, State.readReg_writeReg_ne s hsrc]
      rfl
  | movMemReg addr dst =>
    have hdst : dst ≠ r := fun e => hr (by simp [registersNamed, e])
    rcases Nat.lt_or_ge s.mem.len (addr.toNat + 2) with hout | hin
    · rw [exec_movMemReg_outOfBounds hout] at h
      cases h
      exact exec_movMemReg_outOfBounds (s := s.writeReg r v) hout dst
    · rw [exec_movMemReg hin] at h
      cases h
      rw [exec_movMemReg (s := s.writeReg r v) hin, State.writeReg_comm s hdst]
      rfl
  | addRegReg a b =>
    have ha : a ≠ r := fun e => hr (by simp [registersNamed, e])
    have hb : b ≠ r := fun e => hr (by simp [registersNamed, e])
    cases h
    rw [exec_addRegReg, State.readReg_writeReg_ne s ha, State.readReg_writeReg_ne s hb,
      State.writeReg_comm s hacc.symm]
    rfl
  | jmpNotEq lit addr =>
    have hread : (s.writeReg r v).readReg .acc = s.readReg .acc := State.readReg_writeReg_ne s hacc.symm v
    by_cases htaken : lit = s.readReg .acc
    · rw [exec_jmpNotEq_notTaken htaken] at h
      cases h
      exact exec_jmpNotEq_notTaken (htaken.trans hread.symm)
    · rw [exec_jmpNotEq_taken htaken] at h
      cases h
      rw [exec_jmpNotEq_taken (by rwa [hread]), State.setPc, State.writeReg_comm s hip.symm]
      rfl

/-- Settles O41: neither the fetches nor the effect of the instruction decoded reads the register. -/
theorem unnamedRegistersAreNotRead : Obligations.UnnamedRegistersAreNotRead := by
  intro m s t i rest r v hdecode hnamed hip hacc h
  obtain ⟨hrun, hcases⟩ := stepWith_next h
  rw [stepWith_eq_runFetched m (s := s.writeReg r v) hrun, fetchInstr_writeReg hip]
  rcases hcases with herror | ⟨j, u, hfetch, hexec⟩
  · rw [herror]
    rfl
  · obtain ⟨⟨others, hj⟩, -, -⟩ := State.fetchInstr_ok hfetch
    obtain ⟨rfl, -⟩ : i = j ∧ rest = others := by simpa [hdecode] using hj
    rw [hfetch]
    exact exec_writeReg hip hacc hnamed v hexec

end Sys2Proof.Machine
end

section
/-! Runs (70_reset_and_hazards.md section 4): one equation of `runFrom` per outcome of its first step, what more steps
change, and the invariants of a step carried along a run. -/

namespace Sys2Proof.Machine

section
variable {m : OpcodeMap} {s t : State} {f : FaultRecord} (done n : Nat)

theorem runFrom_of_halted (hs : s.fault = some f) : runFrom m done (n + 1) s = .faulted done f s := by
  rw [runFrom, haltedCoreTakesNoStep m s f hs]

theorem runFrom_of_completed (h : stepWith m s = .next t) (ht : t.fault = none) :
    runFrom m done (n + 1) s = runFrom m (done + 1) n t := by
  rw [runFrom, h]
  simp only [ht]

theorem runFrom_of_raised (h : stepWith m s = .next t) (ht : t.fault = some f) :
    runFrom m done (n + 1) s = .faulted (done + 1) f t := by
  rw [runFrom, h]
  simp only [ht]

end

/-- The first step of a run: the core is halted, or the step completes, or it raises. -/
theorem first_step_cases (m : OpcodeMap) (s : State) :
    (∃ f, s.fault = some f) ∨
    (s.fault = none ∧ ∃ t, stepWith m s = .next t ∧ (t.fault = none ∨ ∃ f, t.fault = some f)) := by
  cases hs : s.fault with
  | some f => exact .inl ⟨f, rfl⟩
  | none =>
    obtain ⟨t, ht⟩ := runningCoreAlwaysSteps m s hs
    exact .inr ⟨rfl, t, ht, Option.eq_none_or_eq_some t.fault⟩

/-- A run that faulted ends the same with more steps asked for, wherever its count begins. -/
theorem runFrom_add_of_faulted {m : OpcodeMap} {n k done : Nat} {s t : State} {f : FaultRecord} (extra : Nat)
    (h : runFrom m done n s = .faulted k f t) : runFrom m done (n + extra) s = .faulted k f t := by
  induction n generalizing done s with
  | zero => cases h
  | succ n ih =>
    rw [Nat.succ_add]
    rcases first_step_cases m s with ⟨g, hs⟩ | ⟨-, u, hstep, hu | ⟨g, hu⟩⟩
    · rwa [runFrom_of_halted done _ hs] at h ⊢
    · rw [runFrom_of_completed done _ hstep hu] at h ⊢
      exact ih h
    · rwa [runFrom_of_raised done _ hstep hu] at h ⊢

/-- Settles O47, by induction on the steps of the faulted run. -/
theorem runStopsAtFirstFault : Obligations.RunStopsAtFirstFault :=
  fun _ _ _ _ extra _ _ h => runFrom_add_of_faulted extra h

/-- How a run over a memory of `len` bytes may end: completed with the latch clear, or faulted at one of the steps
`first` to `last` for a true cause, either way with a well-formed memory of that length; never refused. -/
def RunEnd.Justified (m : OpcodeMap) (len first last : Nat) : RunEnd → Prop
  | .completed s => s.fault = none ∧ s.mem.wf ∧ s.mem.len = len
  | .faulted k f s =>
    first ≤ k ∧ k ≤ last ∧ s.fault = some f ∧ s.latchJustified m ∧ s.mem.wf ∧ s.mem.len = len
  | .refused _ => False

theorem RunEnd.Justified.of_later {m : OpcodeMap} {len first last : Nat} {e : RunEnd}
    (h : e.Justified m len (first + 1) last) : e.Justified m len first last := by
  cases e with
  | completed s => exact h
  | faulted k f s =>
    obtain ⟨hfirst, hrest⟩ := h
    exact ⟨Nat.le_of_succ_le hfirst, hrest⟩
  | refused r => exact h

/-- The invariants of a step along a run. -/
theorem runFrom_justified {m : OpcodeMap} {done n : Nat} {s : State} (hrun : s.fault = none) (hmem : s.mem.wf) :
    (runFrom m done n s).Justified m s.mem.len (done + 1) (done + n) := by
  induction n generalizing done s with
  | zero => exact ⟨hrun, hmem, rfl⟩
  | succ n ih =>
    rcases first_step_cases m s with ⟨g, hs⟩ | ⟨-, t, hstep, ht⟩
    · rw [hrun] at hs; cases hs
    · obtain ⟨hwf, hlen⟩ := stepWith_keeps_wf hmem hstep
      rcases ht with ht | ⟨g, ht⟩
      · have hrest := (ih (done := done + 1) ht hwf).of_later
        rw [hlen, Nat.add_right_comm] at hrest
        rw [runFrom_of_completed done n hstep ht]
        exact hrest
      · rw [runFrom_of_raised done n hstep ht]
        exact ⟨Nat.le_refl _, by omega, ht, stepWith_latchJustified hmem hstep, hwf, hlen⟩

/-- Settles O48: reset meets the invariants, and a run carries them. -/
theorem everyRunFromResetCompletesOrFaultsJustified : Obligations.EveryRunFromResetCompletesOrFaultsJustified := by
  intro m mem n hmem
  have hend := runFrom_justified (m := m) (done := 0) (n := n) (resetWith_fault mem) hmem
  rw [Nat.zero_add, Nat.zero_add] at hend
  cases hr : runFrom m 0 n (resetWith mem) <;> rw [hr] at hend <;> exact hend

end Sys2Proof.Machine
end
